-- ==== Sys2Proof/Word.lean ====
section
/-! DEFINITION. The one word of the core: an unsigned byte (R8 `XLEN` = 8, R10). -/

namespace Sys2Proof

/-- A byte: a register, a memory cell, an immediate, an opcode or an operand (R10, R20, R35). -/
abbrev Byte := BitVec 8

end Sys2Proof
end

