-- ==== Sys2Proof/Config.lean ====
section
/-! DEFINITION. The fixed parameters of the hardware (R8) and the type of the parameters a model takes as
arguments (R9). The values the spec gives these parameters stand in Decode.lean. -/

namespace Sys2Proof

/-- `MEM_SIZE` (R8, D1): the number of memory cells. -/
def memSize : Nat := 256

/-- `LOAD_BASE` (R8): where the loader puts the first image byte. -/
def loadBase : Nat := 0

/-- `PC_RESET` (R8). -/
def pcReset : Nat := 0

/-- `SP_RESET` (R8). -/
def spReset : Byte := 0xF4

/-- `SP_INDEX` (R8, R23): the register that is the stack pointer. -/
def spIndex : Fin 8 := 7

/-- The instruction names of the opcode map (R66). JPM is another spelling of JMP (R75), not a name of its own. -/
inductive Mnemonic where
  | NOP | HLT | RET | IRET
  | PUSH | POP | PRN | PRA | CALL | INT | JMP | JEQ | JNE | JGT | JLT | JLE | JGE | INC | DEC | NOT
  | LDI | LD | ST | ADD | SUB | MUL | DIV | MOD | CMP | AND | OR | XOR | SHL | SHR
  | ADDI
  deriving DecidableEq, Repr

/-- The three groups of R4: always present, reserved, present only when enabled. -/
inductive Group where
  | base | reserved | extension
  deriving DecidableEq, Repr

/-- `OPCODE_MAP` (R9, D2): the opcode byte of every instruction but ADDI, whose byte is `ADDI_OPCODE`. -/
structure OpcodeMap where
  NOP : Byte
  HLT : Byte
  RET : Byte
  IRET : Byte
  PUSH : Byte
  POP : Byte
  PRN : Byte
  PRA : Byte
  CALL : Byte
  INT : Byte
  JMP : Byte
  JEQ : Byte
  JNE : Byte
  JGT : Byte
  JLT : Byte
  JLE : Byte
  JGE : Byte
  INC : Byte
  DEC : Byte
  NOT : Byte
  LDI : Byte
  LD : Byte
  ST : Byte
  ADD : Byte
  SUB : Byte
  MUL : Byte
  DIV : Byte
  MOD : Byte
  CMP : Byte
  AND : Byte
  OR : Byte
  XOR : Byte
  SHL : Byte
  SHR : Byte
  deriving DecidableEq, Repr

/-- `EXTENSIONS` (R9, R68, D13): which optional instructions are present. -/
structure Extensions where
  INC : Bool
  DEC : Bool
  NOT : Bool
  NOP : Bool
  ADDI : Bool
  deriving DecidableEq, Repr

/-- `INT_IRET_MODE` (R9, D12). -/
inductive IntIretMode where
  | fault
  | nop
  deriving DecidableEq, Repr

/-- The parameters of R9 that the core depends on. -/
structure Config where
  opcodes : OpcodeMap
  extensions : Extensions
  /-- `ADDI_OPCODE` (R180, D14): OPEN, so possibly not given. -/
  addiOpcode : Option Byte
  intIretMode : IntIretMode
  deriving DecidableEq, Repr

/-- `OUTPUT_ENCODING` (R9, R33, D17): OPEN, the bytes the host writes for a sequence of output characters.
It has no body: nothing can be proved about its values. The core never reads it. -/
opaque outputEncoding : List Byte → List Byte

end Sys2Proof
end

