-- ==== Sys2Proof/Syntax.lean ====
section
/-! DEFINITION. The instructions (R66, R180). An operand is a whole operand byte (R63): a register operand `a` or `b`
is the byte used as a register index, which may be out of range and is checked when the instruction executes (R22);
`imm` is an immediate (R64). -/

namespace Sys2Proof

/-- One constructor per row of spec/opcode_table.json, in the table's order. -/
inductive Instr where
  -- format Z (R65)
  | nop
  | hlt
  | ret
  | iret
  -- format R
  | push (a : Byte)
  | pop (a : Byte)
  | prn (a : Byte)
  | pra (a : Byte)
  | call (a : Byte)
  /-- INT: the operand byte is fetched and never read as a register (R161). -/
  | int (a : Byte)
  | jmp (a : Byte)
  | jeq (a : Byte)
  | jne (a : Byte)
  | jgt (a : Byte)
  | jlt (a : Byte)
  | jle (a : Byte)
  | jge (a : Byte)
  | inc (a : Byte)
  | dec (a : Byte)
  | not (a : Byte)
  -- format RI
  | ldi (a imm : Byte)
  -- format RR
  | ld (a b : Byte)
  | st (a b : Byte)
  | add (a b : Byte)
  | sub (a b : Byte)
  | mul (a b : Byte)
  | div (a b : Byte)
  | mod (a b : Byte)
  | cmp (a b : Byte)
  | and (a b : Byte)
  | or (a b : Byte)
  | xor (a b : Byte)
  | shl (a b : Byte)
  | shr (a b : Byte)
  -- format RI
  | addi (a imm : Byte)
  deriving DecidableEq, Repr

end Sys2Proof
end

