-- ==== Sys2Proof/WellFormed.lean ====
section
/-! DEFINITION. Which operand bytes of an instruction are register operands (R63, R65), and the check that they are in
range (R22). An ill-formed instruction still encodes, decodes and executes: executing it raises `InvalidRegister`. -/

namespace Sys2Proof

/-- The register operands, in the order in which they are checked (R199 item 5). INT's operand is none (R161, R193). -/
def Instr.regOperands : Instr → List Byte
  | .nop => []
  | .hlt => []
  | .ret => []
  | .iret => []
  | .push a => [a]
  | .pop a => [a]
  | .prn a => [a]
  | .pra a => [a]
  | .call a => [a]
  | .int _ => []
  | .jmp a => [a]
  | .jeq a => [a]
  | .jne a => [a]
  | .jgt a => [a]
  | .jlt a => [a]
  | .jle a => [a]
  | .jge a => [a]
  | .inc a => [a]
  | .dec a => [a]
  | .not a => [a]
  | .ldi a _ => [a]
  | .ld a b => [a, b]
  | .st a b => [a, b]
  | .add a b => [a, b]
  | .sub a b => [a, b]
  | .mul a b => [a, b]
  | .div a b => [a, b]
  | .mod a b => [a, b]
  | .cmp a b => [a, b]
  | .and a b => [a, b]
  | .or a b => [a, b]
  | .xor a b => [a, b]
  | .shl a b => [a, b]
  | .shr a b => [a, b]
  | .addi a _ => [a]

/-- A register index is in [0, 7] (R22); no bit of the byte is ignored. -/
def validReg (i : Byte) : Bool := decide (i.toNat < 8)

/-- Every register operand is in range: "register indices referenced by any instruction must be in [0,7]" (R22). -/
def Instr.wellFormed (i : Instr) : Bool := i.regOperands.all validReg

end Sys2Proof
end

