-- ==== Sys2Proof/Decode.lean ====
section
/-! DEFINITION. The opcode map and the validity of a configuration (R9, R57, R58, R66, R67), the decoder (R56 to R73,
R82, R84) and the encoder, and the decoder on a word numbered as spec/opcode_table.json numbers it. -/

namespace Sys2Proof

/-! ### The opcode byte -/

/-- Bits 7:6 of the opcode: the operand count (R57, R82). It can read 3 (R60, D18). -/
def opcodeCount (op : Byte) : Nat := (op.extractLsb' 6 2).toNat

/-- The instruction size, from the opcode byte alone (R59, R82). -/
def opcodeSize (op : Byte) : Nat := opcodeCount op + 1

/-- Bit 4 of the opcode: the sets-PC bit (R58). -/
def opcodeSetsPc (op : Byte) : Bool := op.getLsbD 4

/-! ### What the table fixes for each instruction -/

/-- Column "count" of R66. -/
def Mnemonic.operandCount : Mnemonic → Nat
  | .NOP | .HLT | .RET | .IRET => 0
  | .PUSH | .POP | .PRN | .PRA | .CALL | .INT | .JMP | .JEQ | .JNE | .JGT | .JLT | .JLE | .JGE => 1
  | .INC | .DEC | .NOT => 1
  | .LDI | .LD | .ST | .ADD | .SUB | .MUL | .DIV | .MOD | .CMP | .AND | .OR | .XOR | .SHL | .SHR => 2
  | .ADDI => 2

/-- Column "sets PC" of R66 (R58). -/
def Mnemonic.setsPc : Mnemonic → Bool
  | .RET | .IRET | .CALL | .INT | .JMP | .JEQ | .JNE | .JGT | .JLT | .JLE | .JGE => true
  | .NOP | .HLT | .PUSH | .POP | .PRN | .PRA | .INC | .DEC | .NOT => false
  | .LDI | .LD | .ST | .ADD | .SUB | .MUL | .DIV | .MOD | .CMP | .AND | .OR | .XOR | .SHL | .SHR => false
  | .ADDI => false

/-- Column "group" of R66. -/
def Mnemonic.group : Mnemonic → Group
  | .NOP | .INC | .DEC | .NOT | .ADDI => .extension
  | .INT | .IRET => .reserved
  | .HLT | .RET | .PUSH | .POP | .PRN | .PRA | .CALL | .JMP | .JEQ | .JNE | .JGT | .JLT | .JLE | .JGE => .base
  | .LDI | .LD | .ST | .ADD | .SUB | .MUL | .DIV | .MOD | .CMP | .AND | .OR | .XOR | .SHL | .SHR => .base

/-- The name of an instruction. -/
def Instr.mnemonic : Instr → Mnemonic
  | .nop => .NOP
  | .hlt => .HLT
  | .ret => .RET
  | .iret => .IRET
  | .push _ => .PUSH
  | .pop _ => .POP
  | .prn _ => .PRN
  | .pra _ => .PRA
  | .call _ => .CALL
  | .int _ => .INT
  | .jmp _ => .JMP
  | .jeq _ => .JEQ
  | .jne _ => .JNE
  | .jgt _ => .JGT
  | .jlt _ => .JLT
  | .jle _ => .JLE
  | .jge _ => .JGE
  | .inc _ => .INC
  | .dec _ => .DEC
  | .not _ => .NOT
  | .ldi _ _ => .LDI
  | .ld _ _ => .LD
  | .st _ _ => .ST
  | .add _ _ => .ADD
  | .sub _ _ => .SUB
  | .mul _ _ => .MUL
  | .div _ _ => .DIV
  | .mod _ _ => .MOD
  | .cmp _ _ => .CMP
  | .and _ _ => .AND
  | .or _ _ => .OR
  | .xor _ _ => .XOR
  | .shl _ _ => .SHL
  | .shr _ _ => .SHR
  | .addi _ _ => .ADDI

/-- The operand bytes, `a` at `pc + 1` before `b` or `imm` at `pc + 2` (R56). -/
def Instr.operands : Instr → List Byte
  | .nop => []
  | .hlt => []
  | .ret => []
  | .iret => []
  | .push a => [a]
  | .pop a => [a]
  | .prn a => [a]
  | .pra a => [a]
  | .call a => [a]
  | .int a => [a]
  | .jmp a => [a]
  | .jeq a => [a]
  | .jne a => [a]
  | .jgt a => [a]
  | .jlt a => [a]
  | .jle a => [a]
  | .jge a => [a]
  | .inc a => [a]
  | .dec a => [a]
  | .not a => [a]
  | .ldi a imm => [a, imm]
  | .ld a b => [a, b]
  | .st a b => [a, b]
  | .add a b => [a, b]
  | .sub a b => [a, b]
  | .mul a b => [a, b]
  | .div a b => [a, b]
  | .mod a b => [a, b]
  | .cmp a b => [a, b]
  | .and a b => [a, b]
  | .or a b => [a, b]
  | .xor a b => [a, b]
  | .shl a b => [a, b]
  | .shr a b => [a, b]
  | .addi a imm => [a, imm]

/-- The instruction size in bytes (R59, R65). -/
def Instr.size (i : Instr) : Nat := i.mnemonic.operandCount + 1

/-- Whether the instruction sets the PC itself (R58). -/
def Instr.setsPc (i : Instr) : Bool := i.mnemonic.setsPc

/-- The instruction of a name and its operand bytes; a name with fewer operands ignores the rest (R80). -/
def assemble : Mnemonic → Byte → Byte → Instr
  | .NOP, _, _ => .nop
  | .HLT, _, _ => .hlt
  | .RET, _, _ => .ret
  | .IRET, _, _ => .iret
  | .PUSH, a, _ => .push a
  | .POP, a, _ => .pop a
  | .PRN, a, _ => .prn a
  | .PRA, a, _ => .pra a
  | .CALL, a, _ => .call a
  | .INT, a, _ => .int a
  | .JMP, a, _ => .jmp a
  | .JEQ, a, _ => .jeq a
  | .JNE, a, _ => .jne a
  | .JGT, a, _ => .jgt a
  | .JLT, a, _ => .jlt a
  | .JLE, a, _ => .jle a
  | .JGE, a, _ => .jge a
  | .INC, a, _ => .inc a
  | .DEC, a, _ => .dec a
  | .NOT, a, _ => .not a
  | .LDI, a, imm => .ldi a imm
  | .LD, a, b => .ld a b
  | .ST, a, b => .st a b
  | .ADD, a, b => .add a b
  | .SUB, a, b => .sub a b
  | .MUL, a, b => .mul a b
  | .DIV, a, b => .div a b
  | .MOD, a, b => .mod a b
  | .CMP, a, b => .cmp a b
  | .AND, a, b => .and a b
  | .OR, a, b => .or a b
  | .XOR, a, b => .xor a b
  | .SHL, a, b => .shl a b
  | .SHR, a, b => .shr a b
  | .ADDI, a, imm => .addi a imm

/-! ### The opcode map -/

/-- The default `OPCODE_MAP` (R66). LDI, PRN and HLT are fixed by the source (R67); the other values are PRESUMED
(the LS-8 teaching architecture's, D2, G2; log 2). -/
def defaultOpcodes : OpcodeMap where
  NOP := 0x00
  HLT := 0x01
  RET := 0x11
  IRET := 0x13
  PUSH := 0x45
  POP := 0x46
  PRN := 0x47
  PRA := 0x48
  CALL := 0x50
  INT := 0x52
  JMP := 0x54
  JEQ := 0x55
  JNE := 0x56
  JGT := 0x57
  JLT := 0x58
  JLE := 0x59
  JGE := 0x5A
  INC := 0x65
  DEC := 0x66
  NOT := 0x69
  LDI := 0x82
  LD := 0x83
  ST := 0x84
  ADD := 0xA0
  SUB := 0xA1
  MUL := 0xA2
  DIV := 0xA3
  MOD := 0xA4
  CMP := 0xA7
  AND := 0xA8
  OR := 0xAA
  XOR := 0xAB
  SHL := 0xAC
  SHR := 0xAD

/-- `EXTENSIONS` empty (R9, D13). -/
def noExtensions : Extensions where
  INC := false
  DEC := false
  NOT := false
  NOP := false
  ADDI := false

/-- The parameters' defaults for this hardware (R9). `ADDI_OPCODE` is OPEN and has none (D14; log 4). -/
def defaultConfig : Config where
  opcodes := defaultOpcodes
  extensions := noExtensions
  addiOpcode := none
  intIretMode := .fault

/-- The rows of `OPCODE_MAP`, in the table's order. -/
def OpcodeMap.rows (o : OpcodeMap) : List (Mnemonic × Byte) :=
  [(.NOP, o.NOP), (.HLT, o.HLT), (.RET, o.RET), (.IRET, o.IRET),
    (.PUSH, o.PUSH), (.POP, o.POP), (.PRN, o.PRN), (.PRA, o.PRA), (.CALL, o.CALL), (.INT, o.INT),
    (.JMP, o.JMP), (.JEQ, o.JEQ), (.JNE, o.JNE), (.JGT, o.JGT), (.JLT, o.JLT), (.JLE, o.JLE), (.JGE, o.JGE),
    (.INC, o.INC), (.DEC, o.DEC), (.NOT, o.NOT), (.LDI, o.LDI), (.LD, o.LD), (.ST, o.ST),
    (.ADD, o.ADD), (.SUB, o.SUB), (.MUL, o.MUL), (.DIV, o.DIV), (.MOD, o.MOD), (.CMP, o.CMP),
    (.AND, o.AND), (.OR, o.OR), (.XOR, o.XOR), (.SHL, o.SHL), (.SHR, o.SHR)]

/-- The row of ADDI, there only when ADDI is enabled and has an opcode (R9, R180). -/
def Config.addiRow (c : Config) : List (Mnemonic × Byte) :=
  match c.extensions.ADDI, c.addiOpcode with
  | true, some q => [(.ADDI, q)]
  | _, _ => []

/-- The dispatcher's table, one row per instruction that has an opcode byte (R93). -/
def Config.rows (c : Config) : List (Mnemonic × Byte) := c.opcodes.rows ++ c.addiRow

/-- A base or reserved instruction is always recognized, an extension when it is enabled (R68, R69, R84). -/
def Config.recognizes (c : Config) : Mnemonic → Bool
  | .NOP => c.extensions.NOP
  | .INC => c.extensions.INC
  | .DEC => c.extensions.DEC
  | .NOT => c.extensions.NOT
  | .ADDI => c.extensions.ADDI
  | .INT | .IRET => true
  | .HLT | .RET | .PUSH | .POP | .PRN | .PRA | .CALL | .JMP | .JEQ | .JNE | .JGT | .JLT | .JLE | .JGE => true
  | .LDI | .LD | .ST | .ADD | .SUB | .MUL | .DIV | .MOD | .CMP | .AND | .OR | .XOR | .SHL | .SHR => true

/-- No byte stands twice in the list. -/
def allDistinct : List Byte → Bool
  | [] => true
  | b :: bs => !bs.contains b && allDistinct bs

/-- A row agrees with the opcode's own bits 7:6 and bit 4 (R57, R58). -/
def rowAgrees (r : Mnemonic × Byte) : Bool :=
  opcodeCount r.2 == r.1.operandCount && opcodeSetsPc r.2 == r.1.setsPc

/-- The configurations a model does not refuse (R9, R93): no byte for two instructions, every byte's count and
sets-PC bits right, the three bytes of R67 unchanged, and an opcode for ADDI if it is enabled (D14). -/
def Config.valid (c : Config) : Bool :=
  allDistinct (c.rows.map Prod.snd) && c.rows.all rowAgrees
  && (c.opcodes.LDI == 0x82 && c.opcodes.PRN == 0x47 && c.opcodes.HLT == 0x01)
  && (!c.extensions.ADDI || c.addiOpcode.isSome)

/-- `Lookup(op)` (R84): the recognized instruction whose opcode equals the whole byte, or none. -/
def Config.lookup (c : Config) (op : Byte) : Option Mnemonic :=
  (c.rows.find? fun r => r.2 == op && c.recognizes r.1).map Prod.fst

/-- The opcode byte of an instruction name; none for ADDI when it is not enabled or has no byte. -/
def Config.opcodeOf (c : Config) (m : Mnemonic) : Option Byte :=
  (c.rows.find? fun r => r.1 == m).map Prod.snd

/-! ### Decoder and encoder -/

/-- Why bytes are no instruction. -/
inductive DecodeReject where
  /-- There is no opcode byte. -/
  | noOpcode
  /-- Fewer bytes follow the opcode than its bits 7:6 call for (R83). -/
  | truncated (op : Byte)
  /-- The opcode is not that of a recognized instruction (R70). -/
  | unrecognized (op : Byte)
  deriving DecidableEq, Repr

/-- The instruction of an opcode byte and the operand bytes fetched for it; none when the opcode is unrecognized
(R61, R63, R70, R84). -/
def decodeFields (c : Config) (op : Byte) (operands : List Byte) : Option Instr :=
  (c.lookup op).map fun m => assemble m (operands.getD 0 0) (operands.getD 1 0)

/-- The decoder: one instruction from the front of the bytes, and the bytes after it. The operand bytes are taken
before the opcode is looked up (R83, R84). -/
def decode (c : Config) : List Byte → Except DecodeReject (Instr × List Byte)
  | [] => .error .noOpcode
  | op :: rest =>
    if rest.length < opcodeCount op then .error (.truncated op)
    else
      match decodeFields c op (rest.take (opcodeCount op)) with
      | none => .error (.unrecognized op)
      | some i => .ok (i, rest.drop (opcodeCount op))

/-- The encoder (R56): the opcode byte, then the operand bytes; none for an ADDI that has no opcode. -/
def encode (c : Config) (i : Instr) : Option (List Byte) :=
  (c.opcodeOf i.mnemonic).map fun op => op :: i.operands

/-- The operand byte that names register `r` (R63). -/
def regOperand (r : Fin 8) : Byte := BitVec.ofNat 8 r.val

/-! ### Words numbered as spec/opcode_table.json numbers them -/

/-- Every row of the table that has an opcode is recognized: all extensions on, but for ADDI, whose opcode the spec
leaves OPEN (log 22). -/
def tableConfig : Config :=
  { defaultConfig with extensions := { INC := true, DEC := true, NOT := true, NOP := true, ADDI := false } }

/-- The bytes of a table word, first byte in bits 7..0, every bit from `nbits` up being 0. Four bytes hold the
longest instruction a decoder can be asked about (R72). -/
def tableBytes (nbits w : Nat) : List Byte :=
  (List.range 4).map fun k => BitVec.ofNat 8 (w % 2 ^ nbits / 2 ^ (8 * k))

/-- The instruction the decoder reads from a table word. -/
def decodeTableWord (nbits w : Nat) : Option Instr :=
  match decode tableConfig (tableBytes nbits w) with
  | .ok (i, _) => some i
  | .error _ => none

/-- The configuration with the extension of an opcode byte enabled; unchanged for any other byte (log 21). -/
def Config.enabling (c : Config) (op : Byte) : Config :=
  match (c.opcodes.rows.find? fun r => r.2 == op).map Prod.fst with
  | some .INC => { c with extensions := { c.extensions with INC := true } }
  | some .DEC => { c with extensions := { c.extensions with DEC := true } }
  | some .NOT => { c with extensions := { c.extensions with NOT := true } }
  | some .NOP => { c with extensions := { c.extensions with NOP := true } }
  | some _ => c
  | none => if c.addiOpcode = some op then { c with extensions := { c.extensions with ADDI := true } } else c

end Sys2Proof
end

