-- ==== Sys2Proof/Machine/State.lean ====
section
/-! DEFINITION. The state of the core (R20 to R38), the conditions (R190, R191), why a step can stop, and the state
after reset. -/

namespace Sys2Proof.Machine

/-- The conditions and the information each records (R191). -/
inductive Condition where
  /-- Code 1, fatal: an address outside [0, 256), or −1 or 0x100 of a stack operation (R192). -/
  | addressOutOfRange (addr : Int)
  /-- Code 2, fatal: the register index byte, 8 to 255 (R193). -/
  | invalidRegister (index : Byte)
  /-- Code 3, fatal: the opcode byte (R194). -/
  | unrecognizedOpcode (op : Byte)
  /-- Code 4, recoverable (R196). -/
  | divisionByZero
  /-- Code 5, fatal: the opcode byte of INT or IRET (R197). -/
  | reservedInstruction (op : Byte)
  /-- Code 6, fatal: raised by no rule (R113). -/
  | unsupportedALUOperation
  /-- Code 7, fatal at load time, outside the core: the line number (R202, R219). -/
  | malformedProgram (line : Nat)
  /-- Code 8, user-facing, outside the core (R202, R220). -/
  | usageError
  deriving DecidableEq, Repr

/-- The run status (R32). -/
inductive Status where
  | running
  | halted
  | faulted (cond : Condition)
  deriving DecidableEq, Repr

/-- Memory as the list of the cells that do not hold `fillByte`, in rising order of address (R35; `Memory.wf`). -/
abbrev Memory := List Host.Cell

/-- What an unlisted cell reads as: the reset content of every cell (R36, D5; log 10). -/
def fillByte : Byte := 0x00

/-- The architectural state, one aggregate (R37), and the parameters `cfg` of the step (R9; log 1). -/
structure State where
  /-- `mem` (R35). -/
  mem : Memory
  /-- `x[0]` to `x[7]` (R20); `x[7]` is `SP` (R23). -/
  x : Vector Byte 8
  /-- `pc`, in [0, 256] and never wrapped (R27; log 9). -/
  pc : Nat
  /-- `FL` (R29). -/
  fl : Byte
  /-- `status` (R32). -/
  status : Status
  /-- `out`, oldest character first (R33). -/
  out : List Byte
  /-- `diag`, oldest event first; an event is its condition (R34). -/
  diag : List Condition
  /-- `OPCODE_MAP`, `EXTENSIONS`, `ADDI_OPCODE`, `INT_IRET_MODE` (R9). No step changes it. -/
  cfg : Config
  deriving DecidableEq, Repr

/-- Why no step exists from a state. A fatal condition of an instruction is none of these: it is a step to the state
`Faulted` (R195; log 6). -/
inductive Fault where
  /-- Raised by `step` in a state whose status is `Halted`: terminal (R89). Safe: the core takes no step there. -/
  | stepOfHalted
  /-- Raised by `step` in a state whose status is `Faulted`: terminal (R89). Safe: the core takes no step there. -/
  | stepOfFaulted (cond : Condition)
  deriving DecidableEq, Repr

/-- What the model declines to give a meaning. -/
inductive Refusal where
  /-- Raised by an arm of `exec` whose instruction has no meaning yet. No arm does. Safe. -/
  | notModelled (mnemonic : String)
  /-- Raised by `step` for a configuration that a model must refuse (R9, R93; log 3). Safe: no such core exists. -/
  | invalidConfiguration
  deriving DecidableEq, Repr

/-- The state immediately after reset, before the loader runs (R38, R215), with the default parameters (R9). -/
def State.reset : State where
  mem := []
  x := #v[0x00, 0x00, 0x00, 0x00, 0x00, 0x00, 0x00, spReset]
  pc := pcReset
  fl := 0x00
  status := .running
  out := []
  diag := []
  cfg := defaultConfig

end Sys2Proof.Machine
end

