-- ==== Sys2Proof/Machine/Ops.lean ====
section
/-! DEFINITION. The named operations over memory, registers, pc, stack and output (R11, R40, R136, R137), taking a
condition (R195, R196), and the end of an instruction (R86, R87). There is no return from a condition: `Halted` and
`Faulted` are terminal (R200). -/

namespace Sys2Proof.Machine

/-! ### Memory -/

/-- The byte at an address. -/
def Memory.read : Memory → Nat → Byte
  | [], _ => fillByte
  | (k, v) :: m, a => if k = a then v else Memory.read m a

/-- The memory with no listed cell at address `a`. -/
def Memory.erase (m : Memory) (a : Nat) : Memory := m.filter fun c => c.1 != a

/-- The memory with the cell `(a, v)` listed before the first cell at a higher address. -/
def Memory.insert : Memory → Nat → Byte → Memory
  | [], a, v => [(a, v)]
  | c :: m, a, v => if a < c.1 then (a, v) :: c :: m else c :: Memory.insert m a v

/-- The memory with byte `v` at address `a`. It keeps the canonical form: a cell that comes to hold `fillByte` is
listed no more. -/
def Memory.write (m : Memory) (a : Nat) (v : Byte) : Memory :=
  if v = fillByte then Memory.erase m a else Memory.insert (Memory.erase m a) a v

/-- The canonical form from address `lo` on: rising addresses below `memSize`, no cell holding `fillByte`. -/
def Memory.wfFrom : Nat → Memory → Bool
  | _, [] => true
  | lo, (k, v) :: m => decide (lo ≤ k) && decide (k < memSize) && decide (v ≠ fillByte) && Memory.wfFrom (k + 1) m

/-- The canonical form of a memory, so that equal memories are equal lists. -/
def Memory.wf (m : Memory) : Bool := Memory.wfFrom 0 m

/-- The memory with the bytes put at consecutive addresses from `a`; a byte past the last cell is dropped. It is used
to place a program from outside the machine, never by an instruction. -/
def Memory.place : Memory → Nat → List Byte → Memory
  | m, _, [] => m
  | m, a, v :: vs => Memory.place (if a < memSize then Memory.write m a v else m) (a + 1) vs

/-- `check_addr(a)` (R11, R40): below 0 is out of range too (C5). -/
def checkAddr (a : Int) : Except Condition Unit :=
  if a < 0 ∨ (memSize : Int) ≤ a then .error (.addressOutOfRange a) else .ok ()

/-- `MemRead(a, 1)` (R40). -/
def memRead (a : Int) (s : State) : Except Condition Byte := do
  checkAddr a
  return Memory.read s.mem a.toNat

/-- The state with another memory. -/
def State.setMem (s : State) (m : Memory) : State := { s with mem := m }

/-- `MemWrite(a, 1, v)` (R40). -/
def memWrite (a : Int) (v : Byte) (s : State) : Except Condition State := do
  checkAddr a
  return s.setMem (Memory.write s.mem a.toNat v)

/-- `memRead` of `n` consecutive bytes, in increasing address order (R83). -/
def memReadFrom : Nat → Nat → State → Except Condition (List Byte)
  | _, 0, _ => .ok []
  | a, n + 1, s => do
    let v ← memRead a s
    let vs ← memReadFrom (a + 1) n s
    return v :: vs

/-! ### Registers, pc, flags, status, output -/

/-- `x[r]` (R21). -/
def State.getReg (s : State) (r : Fin 8) : Byte := s.x[r]

/-- `x[r] <- v` (R21): all 8 bits. -/
def State.setReg (s : State) (r : Fin 8) (v : Byte) : State := { s with x := s.x.set r v }

/-- `SP`, which is `x[7]` (R23). -/
def State.sp (s : State) : Byte := s.getReg spIndex

/-- `SP <- v`. -/
def State.setSp (s : State) (v : Byte) : State := s.setReg spIndex v

/-- `pc <- target` (R25). -/
def State.setPc (s : State) (target : Nat) : State := { s with pc := target }

/-- `FL <- v` (R30). -/
def State.setFl (s : State) (v : Byte) : State := { s with fl := v }

/-- `halt` (R11, R88): the run status becomes `Halted`. -/
def State.halt (s : State) : State := { s with status := .halted }

/-- `Out(cs)` (R11, R33): append characters to the output stream. -/
def State.emit (s : State) (cs : List Byte) : State := { s with out := s.out ++ cs }

/-- The digit character of a number below 10 (R123: 0x30 to 0x39). -/
def digit (n : Nat) : Byte := BitVec.ofNat 8 (0x30 + n)

/-- `dec(v)` (R123): the unsigned decimal numeral, most significant digit first, no leading zero. -/
def decimal (v : Byte) : List Byte :=
  let n := v.toNat
  if n < 10 then [digit n]
  else if n < 100 then [digit (n / 10), digit (n % 10)]
  else [digit (n / 100), digit (n / 10 % 10), digit (n % 10)]

/-- The character `"\n"` (R123). -/
def newline : Byte := 0x0A

/-- The bytes the host writes for the output stream (R33, D17): host side, OPEN. -/
def State.hostBytes (s : State) : List Byte := outputEncoding s.out

/-! ### The stack -/

/-- The checked decrement of `SP` (R136, R138): from 0 no slot exists below it (D8; log 11). -/
def decSp (s : State) : Except Condition State :=
  if s.sp = 0x00 then .error (.addressOutOfRange (-1)) else .ok (s.setSp (s.sp - 1))

/-- The checked increment of `SP` (R137, R139): from 0xFF the new value would not be a byte (D8; log 11). -/
def incSp (s : State) : Except Condition State :=
  if s.sp = 0xFF then .error (.addressOutOfRange 0x100) else .ok (s.setSp (s.sp + 1))

/-- `Push(v)` (R136). -/
def push (v : Byte) (s : State) : Except Condition State := do
  let s₁ ← decSp s
  memWrite s₁.sp.toNat v s₁

/-- `Pop()` (R137). -/
def pop (s : State) : Except Condition (Byte × State) := do
  let v ← memRead s.sp.toNat s
  let s₁ ← incSp s
  return (v, s₁)

/-! ### Conditions -/

/-- Fault entry (R195): every piece of state keeps the value it had at the start of the step and `status` becomes
`Faulted(cond, info)`. It is applied to the state the step started in (D6; log 7). -/
def State.enterFault (s : State) (c : Condition) : State := { s with status := .faulted c }

/-- `DivisionByZero` (R196): one diagnostic event, and the core halts cleanly; the instruction then finishes normally. -/
def State.divisionByZero (s : State) : State := { s.halt with diag := s.diag ++ [.divisionByZero] }

/-! ### The end of an instruction -/

/-- An instruction that sets the PC itself (R87): its state as it is, or fault entry in the starting state `s`. -/
def settle (s : State) : Except Condition State → Host.Outcome State Fault Refusal
  | .ok t => .next t
  | .error c => .next (s.enterFault c)

/-- Any other instruction: the automatic advance by its size, not wrapped (R86), unless it raised. -/
def retire (size : Nat) (s : State) : Except Condition State → Host.Outcome State Fault Refusal
  | .ok t => .next (t.setPc (t.pc + size))
  | .error c => .next (s.enterFault c)

end Sys2Proof.Machine
end

