-- ==== Sys2Proof/Machine/Flags.lean ====
section
/-! DEFINITION. The flags register (R29, R30): what CMP writes and what each conditional jump tests (R160). -/

namespace Sys2Proof.Machine

/-- `FL` with L alone: bit 2 (R29, D3; log 8). -/
def flL : Byte := 0x04

/-- `FL` with G alone: bit 1 (R29). -/
def flG : Byte := 0x02

/-- `FL` with E alone: bit 0 (R29). -/
def flE : Byte := 0x01

/-- `FL.L` (R29). -/
def State.flagL (s : State) : Bool := s.fl.getLsbD 2

/-- `FL.G` (R29). -/
def State.flagG (s : State) : Bool := s.fl.getLsbD 1

/-- `FL.E` (R29). -/
def State.flagE (s : State) : Bool := s.fl.getLsbD 0

/-- The flags CMP writes (R111): exactly one of L, G, E, by unsigned comparison. -/
def compareFlags (va vb : Byte) : Byte :=
  if va.toNat < vb.toNat then flL else if vb.toNat < va.toNat then flG else flE

/-- JEQ is taken when E = 1 (R154, R160). -/
def State.condEq (s : State) : Bool := s.flagE

/-- JNE is taken when E = 0 (R155, R160, D15; log 14): before any CMP it is taken. -/
def State.condNe (s : State) : Bool := !s.flagE

/-- JGT is taken when G = 1 (R156, R160). -/
def State.condGt (s : State) : Bool := s.flagG

/-- JGE is taken when G = 1 or E = 1 (R157, R160). -/
def State.condGe (s : State) : Bool := s.flagG || s.flagE

/-- JLT is taken when L = 1 (R158, R160). -/
def State.condLt (s : State) : Bool := s.flagL

/-- JLE is taken when L = 1 or E = 1 (R159, R160). -/
def State.condLe (s : State) : Bool := s.flagL || s.flagE

end Sys2Proof.Machine
end

