-- ==== Sys2Proof/Machine/Operands.lean ====
section
/-! DEFINITION. The operand forms: a register operand (R22, R63), a pair of them (R100), and the shapes of the
instructions built on them. An immediate is the operand byte itself (R64) and needs no operation. -/

namespace Sys2Proof.Machine

/-- `check_reg(i)` (R11, R22): the register a register operand names. -/
def checkReg (i : Byte) : Except Condition (Fin 8) :=
  if h : i.toNat < 8 then .ok ⟨i.toNat, h⟩ else .error (.invalidRegister i)

/-- `check_reg(a); check_reg(b)`: `a` is checked first (R100, R199 item 5). -/
def checkRegs (a b : Byte) : Except Condition (Fin 8 × Fin 8) := do
  let ra ← checkReg a
  let rb ← checkReg b
  return (ra, rb)

/-- `x[a] <- f(x[a])`, the shape of INC, DEC, NOT, ADDI and LDI. -/
def updateReg (f : Byte → Byte) (a : Byte) (s : State) : Except Condition State := do
  let ra ← checkReg a
  return s.setReg ra (f (s.getReg ra))

/-- `x[a] <- f(x[a], x[b])`, the common shape of the ALU (R100): both are read before the write. -/
def combineRegs (f : Byte → Byte → Byte) (a b : Byte) (s : State) : Except Condition State := do
  let (ra, rb) ← checkRegs a b
  return s.setReg ra (f (s.getReg ra) (s.getReg rb))

/-- The shape of DIV and MOD (R104, R105): the divisor `x[b]` is tested after both register checks. -/
def divideRegs (f : Byte → Byte → Byte) (a b : Byte) (s : State) : Except Condition State := do
  let (ra, rb) ← checkRegs a b
  if s.getReg rb = 0x00 then return s.divisionByZero
  else return s.setReg ra (f (s.getReg ra) (s.getReg rb))

/-- `pc <- x[a]` or, not taken, `pc <- pc + 2` (R153 to R159). The operand is checked either way (D7; log 14). -/
def jumpIf (taken : Bool) (a : Byte) (s : State) : Except Condition State := do
  let ra ← checkReg a
  return s.setPc (if taken then (s.getReg ra).toNat else s.pc + 2)

end Sys2Proof.Machine
end

