-- ==== Sys2Proof/Machine/Alu.lean ====
section
/-! DEFINITION. The ALU instructions (R100 to R112): the operations on bytes, then the meanings. Every size is 3. -/

namespace Sys2Proof.Machine

/-! ### Operations on bytes: the exact result, then `trunc8` (R11, R100) -/

/-- `trunc8(v)` = `v mod 256` (R11). -/
def trunc8 (v : Int) : Byte := BitVec.ofInt 8 v

/-- R101. -/
def aluAdd (va vb : Byte) : Byte := trunc8 (va.toNat + vb.toNat)

/-- R102: the mathematical difference reduced to [0, 255]. -/
def aluSub (va vb : Byte) : Byte := trunc8 (va.toNat - vb.toNat)

/-- R103: the low 8 bits of the product. -/
def aluMul (va vb : Byte) : Byte := trunc8 (va.toNat * vb.toNat)

/-- R104, for a divisor other than 0: the floor of the unsigned quotient. -/
def aluDiv (va vb : Byte) : Byte := trunc8 (va.toNat / vb.toNat : Nat)

/-- R105, for a divisor other than 0: the unsigned remainder. -/
def aluMod (va vb : Byte) : Byte := trunc8 (va.toNat % vb.toNat : Nat)

/-- R106. -/
def aluAnd (va vb : Byte) : Byte := va &&& vb

/-- R107. -/
def aluOr (va vb : Byte) : Byte := va ||| vb

/-- R108. -/
def aluXor (va vb : Byte) : Byte := va ^^^ vb

/-- R109: the amount is the whole byte, so 8 or more gives 0 (D10; log 12). -/
def aluShl (va vb : Byte) : Byte := trunc8 (va.toNat * 2 ^ vb.toNat : Nat)

/-- R110: logical, the amount is the whole byte (D10; log 12). -/
def aluShr (va vb : Byte) : Byte := trunc8 (va.toNat / 2 ^ vb.toNat : Nat)

/-! ### Meanings -/

/-- ADD (R101). -/
def execAdd (a b : Byte) (s : State) : Host.Outcome State Fault Refusal := retire 3 s (combineRegs aluAdd a b s)

/-- SUB (R102). -/
def execSub (a b : Byte) (s : State) : Host.Outcome State Fault Refusal := retire 3 s (combineRegs aluSub a b s)

/-- MUL (R103). -/
def execMul (a b : Byte) (s : State) : Host.Outcome State Fault Refusal := retire 3 s (combineRegs aluMul a b s)

/-- DIV (R104, R196). -/
def execDiv (a b : Byte) (s : State) : Host.Outcome State Fault Refusal := retire 3 s (divideRegs aluDiv a b s)

/-- MOD (R105, R196). -/
def execMod (a b : Byte) (s : State) : Host.Outcome State Fault Refusal := retire 3 s (divideRegs aluMod a b s)

/-- AND (R106). -/
def execAnd (a b : Byte) (s : State) : Host.Outcome State Fault Refusal := retire 3 s (combineRegs aluAnd a b s)

/-- OR (R107). -/
def execOr (a b : Byte) (s : State) : Host.Outcome State Fault Refusal := retire 3 s (combineRegs aluOr a b s)

/-- XOR (R108). -/
def execXor (a b : Byte) (s : State) : Host.Outcome State Fault Refusal := retire 3 s (combineRegs aluXor a b s)

/-- SHL (R109). -/
def execShl (a b : Byte) (s : State) : Host.Outcome State Fault Refusal := retire 3 s (combineRegs aluShl a b s)

/-- SHR (R110). -/
def execShr (a b : Byte) (s : State) : Host.Outcome State Fault Refusal := retire 3 s (combineRegs aluShr a b s)

/-- `check_reg(a); check_reg(b)`, then the flags of the comparison replace all of `FL` (R111). -/
def compareRegs (a b : Byte) (s : State) : Except Condition State := do
  let (ra, rb) ← checkRegs a b
  return s.setFl (compareFlags (s.getReg ra) (s.getReg rb))

/-- CMP (R111). -/
def execCmp (a b : Byte) (s : State) : Host.Outcome State Fault Refusal := retire 3 s (compareRegs a b s)

end Sys2Proof.Machine
end

