-- ==== Sys2Proof/Machine/ControlFlow.lean ====
section
/-! DEFINITION. Control flow (R150 to R162). Every meaning writes `pc` itself (R87). -/

namespace Sys2Proof.Machine

/-- The effect of CALL (R151): register check, return-address check (D9; log 11), push, then the target register is
read, so CALL R7 jumps to the decremented `SP` (D25; log 16). -/
def callReg (a : Byte) (s : State) : Except Condition State := do
  let ra ← checkReg a
  let ret := s.pc + 2
  if 0xFF < ret then throw (.addressOutOfRange ret)
  let s₁ ← push (BitVec.ofNat 8 ret) s
  return s₁.setPc (s₁.getReg ra).toNat

/-- CALL (R151). -/
def execCall (a : Byte) (s : State) : Host.Outcome State Fault Refusal := settle s (callReg a s)

/-- `pc <- Pop()` (R152). -/
def returnFromCall (s : State) : Except Condition State := do
  let (v, s₁) ← pop s
  return s₁.setPc v.toNat

/-- RET (R152). -/
def execRet (s : State) : Host.Outcome State Fault Refusal := settle s (returnFromCall s)

/-- JMP (R153). -/
def execJmp (a : Byte) (s : State) : Host.Outcome State Fault Refusal := settle s (jumpIf true a s)

/-- JEQ (R154). -/
def execJeq (a : Byte) (s : State) : Host.Outcome State Fault Refusal := settle s (jumpIf s.condEq a s)

/-- JNE (R155). -/
def execJne (a : Byte) (s : State) : Host.Outcome State Fault Refusal := settle s (jumpIf s.condNe a s)

/-- JGT (R156). -/
def execJgt (a : Byte) (s : State) : Host.Outcome State Fault Refusal := settle s (jumpIf s.condGt a s)

/-- JGE (R157). -/
def execJge (a : Byte) (s : State) : Host.Outcome State Fault Refusal := settle s (jumpIf s.condGe a s)

/-- JLT (R158). -/
def execJlt (a : Byte) (s : State) : Host.Outcome State Fault Refusal := settle s (jumpIf s.condLt a s)

/-- JLE (R159). -/
def execJle (a : Byte) (s : State) : Host.Outcome State Fault Refusal := settle s (jumpIf s.condLe a s)

/-- A reserved instruction (R161, R162, R197): the condition in `fault` mode, and in `nop` mode only the advance past
it. `op` is its opcode byte (log 20). -/
def reserved (op : Byte) (size : Nat) (s : State) : Except Condition State :=
  match s.cfg.intIretMode with
  | .fault => .error (.reservedInstruction op)
  | .nop => .ok (s.setPc (s.pc + size))

/-- INT (R161): the operand byte is never read as a register. -/
def execInt (_a : Byte) (s : State) : Host.Outcome State Fault Refusal := settle s (reserved s.cfg.opcodes.INT 2 s)

/-- IRET (R162): nothing is popped or restored. -/
def execIret (s : State) : Host.Outcome State Fault Refusal := settle s (reserved s.cfg.opcodes.IRET 1 s)

end Sys2Proof.Machine
end

