-- ==== Sys2Proof/Machine/DataIo.lean ====
section
/-! DEFINITION. Data movement, output and halt (R120 to R125). -/

namespace Sys2Proof.Machine

/-- LDI (R120): `x[a] <- imm`. -/
def execLdi (a imm : Byte) (s : State) : Host.Outcome State Fault Refusal := retire 3 s (updateReg (fun _ => imm) a s)

/-- `x[a] <- MemRead(x[b], 1)` (R121). -/
def loadReg (a b : Byte) (s : State) : Except Condition State := do
  let (ra, rb) ← checkRegs a b
  let v ← memRead (s.getReg rb).toNat s
  return s.setReg ra v

/-- LD (R121). -/
def execLd (a b : Byte) (s : State) : Host.Outcome State Fault Refusal := retire 3 s (loadReg a b s)

/-- `MemWrite(x[a], 1, x[b])` (R122): the address register comes first. -/
def storeReg (a b : Byte) (s : State) : Except Condition State := do
  let (ra, rb) ← checkRegs a b
  memWrite (s.getReg ra).toNat (s.getReg rb) s

/-- ST (R122). -/
def execSt (a b : Byte) (s : State) : Host.Outcome State Fault Refusal := retire 3 s (storeReg a b s)

/-- `Out(f(x[a]))`, the shape of PRN and PRA. -/
def emitReg (f : Byte → List Byte) (a : Byte) (s : State) : Except Condition State := do
  let ra ← checkReg a
  return s.emit (f (s.getReg ra))

/-- PRN (R123): the decimal numeral, then a newline. -/
def execPrn (a : Byte) (s : State) : Host.Outcome State Fault Refusal :=
  retire 2 s (emitReg (fun v => decimal v ++ [newline]) a s)

/-- PRA (R124): the one character whose code point is the register's value. -/
def execPra (a : Byte) (s : State) : Host.Outcome State Fault Refusal := retire 2 s (emitReg (fun v => [v]) a s)

/-- HLT (R125): the pc still advances past it (R86, R88). -/
def execHlt (s : State) : Host.Outcome State Fault Refusal := retire 1 s (.ok s.halt)

end Sys2Proof.Machine
end

