-- ==== Sys2Proof/Machine/Extensions.lean ====
section
/-! DEFINITION. The optional instructions (R175 to R180). That one is recognized only when it is in `EXTENSIONS` is the
decoder's part (R84, R175); the meanings are PRESUMED by the spec from general knowledge (G8; log 28). -/

namespace Sys2Proof.Machine

/-- INC (R176). -/
def execInc (a : Byte) (s : State) : Host.Outcome State Fault Refusal :=
  retire 2 s (updateReg (fun v => trunc8 (v.toNat + 1)) a s)

/-- DEC (R177). -/
def execDec (a : Byte) (s : State) : Host.Outcome State Fault Refusal :=
  retire 2 s (updateReg (fun v => trunc8 (v.toNat - 1)) a s)

/-- NOT (R178). -/
def execNot (a : Byte) (s : State) : Host.Outcome State Fault Refusal :=
  retire 2 s (updateReg (fun v => 0xFF ^^^ v) a s)

/-- NOP (R179). -/
def execNop (s : State) : Host.Outcome State Fault Refusal := retire 1 s (.ok s)

/-- ADDI (R180). -/
def execAddi (a imm : Byte) (s : State) : Host.Outcome State Fault Refusal :=
  retire 3 s (updateReg (fun v => trunc8 (v.toNat + imm.toNat)) a s)

end Sys2Proof.Machine
end

