-- ==== Sys2Proof/Machine/Stack.lean ====
section
/-! DEFINITION. PUSH and POP (R138, R139). The effects are in the source's order, which matters when the operand is
R7 (D25; log 16). -/

namespace Sys2Proof.Machine

/-- The effect of PUSH (R138): the register is read after the decrement, so PUSH R7 stores the decremented `SP`. -/
def pushReg (a : Byte) (s : State) : Except Condition State := do
  let ra ← checkReg a
  let s₁ ← decSp s
  memWrite s₁.sp.toNat (s₁.getReg ra) s₁

/-- PUSH (R138). -/
def execPush (a : Byte) (s : State) : Host.Outcome State Fault Refusal := retire 2 s (pushReg a s)

/-- The effect of POP (R139): the increment applies to `SP` after the register write, so POP R7 leaves the popped
value plus 1. -/
def popReg (a : Byte) (s : State) : Except Condition State := do
  let ra ← checkReg a
  let v ← memRead s.sp.toNat s
  incSp (s.setReg ra v)

/-- POP (R139). -/
def execPop (a : Byte) (s : State) : Host.Outcome State Fault Refusal := retire 2 s (popReg a s)

end Sys2Proof.Machine
end

