-- ==== Sys2Proof/Machine/Fetch.lean ====
section
/-! DEFINITION. Fetch, operand fetch and lookup (R80 to R84). -/

namespace Sys2Proof.Machine

/-- The instruction at the pc, or the first condition met: opcode fetch (R81), then the operand bytes that bits 7:6
call for (R83), then the lookup (R84). The order is R199 items 1 to 3. -/
def fetch (s : State) : Except Condition Instr := do
  let op ← memRead s.pc s
  let operands ← memReadFrom (s.pc + 1) (opcodeCount op) s
  match decodeFields s.cfg op operands with
  | some i => return i
  | none => throw (.unrecognizedOpcode op)

/-- The bytes of an instruction put at the pc, and its extension enabled if it is one: what the next fetch needs to
read exactly that instruction (log 21). -/
def placeInstruction (s : State) : List Byte → State
  | [] => s
  | op :: operands =>
    { s with mem := Memory.place s.mem s.pc (op :: operands.take (opcodeCount op)), cfg := s.cfg.enabling op }

end Sys2Proof.Machine
end

