-- ==== Sys2Proof/Machine/Step.lean ====
section
/-! DEFINITION. One step of the core (R80, R89) and the placing of an instruction where it fetches. -/

namespace Sys2Proof.Machine

/-- One step (R80). It is taken only when the status is `Running`; no step exists from `Halted` or `Faulted` (R89).
A configuration R9 forbids is refused. A condition raised by the fetch enters `Faulted` (R195). -/
def step (s : State) : Host.Outcome State Fault Refusal :=
  match s.status with
  | .halted => .fault .stepOfHalted
  | .faulted c => .fault (.stepOfFaulted c)
  | .running =>
    if s.cfg.valid then
      match fetch s with
      | .ok i => exec i s
      | .error c => .next (s.enterFault c)
    else .refused .invalidConfiguration

/-- `s` with the instruction of a table word where `step` fetches its next instruction (log 21). -/
def State.withFetchWord (s : State) (nbits w : Nat) : State := placeInstruction s (tableBytes nbits w)

end Sys2Proof.Machine
end

