-- ==== Sys2Proof/Machine/Conditions.lean ====
section
/-! DEFINITION. The classes and codes of the conditions (R190, R191). -/

namespace Sys2Proof.Machine

/-- The classes of R190. -/
inductive ConditionClass where
  | fatal
  | recoverable
  | fatalAtLoad
  | userFacing
  deriving DecidableEq, Repr

/-- Column "class" of R191. -/
def Condition.cls : Condition → ConditionClass
  | .addressOutOfRange _ => .fatal
  | .invalidRegister _ => .fatal
  | .unrecognizedOpcode _ => .fatal
  | .divisionByZero => .recoverable
  | .reservedInstruction _ => .fatal
  | .unsupportedALUOperation => .fatal
  | .malformedProgram _ => .fatalAtLoad
  | .usageError => .userFacing

/-- Column "code" of R191 (D16; log 26). No program can read a code. -/
def Condition.code : Condition → Nat
  | .addressOutOfRange _ => 1
  | .invalidRegister _ => 2
  | .unrecognizedOpcode _ => 3
  | .divisionByZero => 4
  | .reservedInstruction _ => 5
  | .unsupportedALUOperation => 6
  | .malformedProgram _ => 7
  | .usageError => 8

end Sys2Proof.Machine
end

