-- ==== Sys2Proof/Machine/Loader.lean ====
section
/-! DEFINITION. What the host does before a run (R215 to R224): program text to image, image to memory, the stop
request. The core takes no part in it. -/

namespace Sys2Proof.Machine

/-- `MemWrite(i, 1, img[i])` for the addresses from `a` on, in that order (R216). -/
def loadFrom : Nat → List Byte → State → Except Condition State
  | _, [], s => .ok s
  | a, v :: vs, s => do
    let s₁ ← memWrite a v s
    loadFrom (a + 1) vs s₁

/-- The loader (R216). An image of more than 256 bytes raises `AddressOutOfRange(256)` (R217, D21); a load that fails
answers the bare condition, with no state. DESIGN CHOICE (log 32). -/
def load (img : List Byte) (s : State) : Except Condition State := loadFrom loadBase img s

/-- The characters that count as white space around a token: space, tab, carriage return, line feed and no others. The
spec says "surrounding whitespace" and names no set (D20). DESIGN CHOICE (log 31). -/
def isWhiteSpace (c : Char) : Bool := c == ' ' || c == '\t' || c == '\r' || c == '\n'

/-- A line without its comment and without the white space around it (R218, D20); which characters are white space is
the model's choice (log 31). -/
def stripLine (line : List Char) : List Char :=
  let token := (line.takeWhile (· != '#')).dropWhile isWhiteSpace
  (token.reverse.dropWhile isWhiteSpace).reverse

/-- Binary digits as an unsigned number, most significant first; none if another character stands among them. -/
def parseBits : Nat → List Char → Option Nat
  | n, [] => some n
  | n, c :: cs =>
    if c = '0' then parseBits (2 * n) cs
    else if c = '1' then parseBits (2 * n + 1) cs
    else none

/-- A token must be exactly 8 binary digits (R218). -/
def parseToken (token : List Char) : Option Byte :=
  if token.length = 8 then (parseBits 0 token).map (BitVec.ofNat 8) else none

/-- The image of the lines, the first of them having number `n` (R218); a malformed line is fatal (R219). -/
def parseFrom : Nat → List (List Char) → Except Condition (List Byte)
  | _, [] => .ok []
  | n, line :: lines =>
    if stripLine line = [] then parseFrom (n + 1) lines
    else
      match parseToken (stripLine line) with
      | none => .error (.malformedProgram n)
      | some v => do
        let vs ← parseFrom (n + 1) lines
        return v :: vs

/-- The image of a program file's lines; lines are numbered from 1 (log 23). -/
def parseProgram (lines : List (List Char)) : Except Condition (List Byte) := parseFrom 1 lines

/-- The host's stop request, which it may make before the run starts and not later (R221, D24; log 25). -/
def State.requestStop (s : State) : State := { s with status := .halted }

/-- The state in which a run starts (R223): reset, the image loaded, then the optional stop request; or the condition
that ends the attempt. `none` is a missing program path (R220). An attempt that fails leaves the bare condition: no
state `Faulted`, no partly loaded memory and no snapshot. DESIGN CHOICE (log 32): the spec says only that no step is
taken (R217, R219, R220), and that the first two are fatal. -/
def boot (program : Option (List (List Char))) (stopRequested : Bool) : Except Condition State :=
  match program with
  | none => .error .usageError
  | some lines => do
    let img ← parseProgram lines
    let s ← load img State.reset
    return if stopRequested then s.requestStop else s

end Sys2Proof.Machine
end

