-- ==== Sys2Proof/Machine/Snapshot.lean ====
section
/-! DEFINITION. The diagnostic snapshot of a faulted state (R203, D22, C6). Its text form is not modelled (log 24). -/

namespace Sys2Proof.Machine

/-- The tuple `(pc, FL, mem[pc], mem[pc+1], mem[pc+2], x[0], ..., x[7])` (R203). `cells` has one entry per cell that
exists, so fewer than three near the end of memory. -/
structure Snapshot where
  pc : Nat
  fl : Byte
  cells : List Byte
  x : Vector Byte 8
  deriving DecidableEq, Repr

/-- The snapshot of a state. -/
def State.snapshot (s : State) : Snapshot where
  pc := s.pc
  fl := s.fl
  cells := ([s.pc, s.pc + 1, s.pc + 2].filter fun a => a < memSize).map (Memory.read s.mem)
  x := s.x

/-- The snapshot that is produced: for a faulted state and for no other (R203). -/
def State.diagnostic (s : State) : Option Snapshot :=
  match s.status with
  | .faulted _ => some s.snapshot
  | .running => none
  | .halted => none

end Sys2Proof.Machine
end

