-- ==== Sys2Proof/Safety.lean ====
section
/-! DEFINITION. The terms in which claims are stated: what every state of a run satisfies, what ends a run, and what an
instruction leaves as it was. -/

namespace Sys2Proof.Machine

/-! ### Runs -/

/-- The terminal states (R89). -/
def State.terminal (s : State) : Bool :=
  match s.status with
  | .running => false
  | .halted => true
  | .faulted _ => true

/-- `t` is reached from `s` by steps. -/
inductive Reaches (s : State) : State → Prop where
  | start : Reaches s s
  | step {t u : State} : Reaches s t → Machine.step t = .next u → Reaches s u

/-! ### The invariant of the core -/

/-- The values `FL` can hold (R29, R30): 0 before the first CMP, then L, G or E alone. -/
def legalFl (v : Byte) : Bool := v == 0x00 || v == flL || v == flG || v == flE

/-- The conditions a step can enter `Faulted` with, with the information they can record (R191 to R197). -/
def Condition.raisable : Condition → Bool
  | .addressOutOfRange a => a == -1 || a == 0x100
  | .invalidRegister i => decide (8 ≤ i.toNat)
  | .unrecognizedOpcode _ => true
  | .divisionByZero => false
  | .reservedInstruction _ => true
  | .unsupportedALUOperation => false
  | .malformedProgram _ => false
  | .usageError => false

/-- A faulted core carries a condition that a step can raise. -/
def legalStatus : Status → Bool
  | .running => true
  | .halted => true
  | .faulted c => c.raisable

/-- The diagnostic channel is empty, or holds the one event of the division by zero that halted the core (R196). -/
def legalDiag (s : State) : Bool := s.diag == [] || (s.diag == [.divisionByZero] && s.status == .halted)

/-- What holds of every state of a run: memory in canonical form within its 256 cells (R35), `pc` in [0, 256] (R27),
and legal flags, status and diagnostic channel. -/
abbrev State.Inv (s : State) : Prop :=
  Memory.wf s.mem = true ∧ s.pc ≤ memSize ∧ legalFl s.fl = true ∧ legalStatus s.status = true ∧ legalDiag s = true

/-! ### Frames -/

/-- Every byte of memory reads as before. -/
def MemoryKept (s t : State) : Prop := ∀ a : Nat, Memory.read t.mem a = Memory.read s.mem a

/-- Every byte of memory but the one at `addr` reads as before. -/
def MemoryKeptBut (addr : Nat) (s t : State) : Prop := ∀ a : Nat, a ≠ addr → Memory.read t.mem a = Memory.read s.mem a

/-- Every general register is as before. -/
def RegistersKept (s t : State) : Prop := ∀ r : Fin 8, t.getReg r = s.getReg r

/-- Every general register but those of the list is as before. -/
def RegistersKeptBut (rs : List (Fin 8)) (s t : State) : Prop := ∀ r : Fin 8, r ∉ rs → t.getReg r = s.getReg r

/-- Flags, run status, output stream, diagnostic channel and parameters are as before. -/
def OthersKept (s t : State) : Prop :=
  t.fl = s.fl ∧ t.status = s.status ∧ t.out = s.out ∧ t.diag = s.diag ∧ t.cfg = s.cfg

/-! ### Shapes of results -/

/-- The instruction completes, advances `pc` by `size`, writes `v` to register `r` and changes nothing else. -/
def WritesRegister (i : Instr) (s : State) (r : Fin 8) (v : Byte) (size : Nat) : Prop :=
  ∃ t, exec i s = .next t ∧ t.getReg r = v ∧ RegistersKeptBut [r] s t ∧ MemoryKept s t ∧ OthersKept s t
    ∧ t.pc = s.pc + size

/-- The instruction completes with `pc` at `target` and changes nothing else. -/
def OnlyMovesPc (i : Instr) (s : State) (target : Nat) : Prop :=
  ∃ t, exec i s = .next t ∧ t.pc = target ∧ RegistersKept s t ∧ MemoryKept s t ∧ OthersKept s t

/-- The instruction raises the condition: fault entry (R195), with every effect discarded. -/
def Raises (i : Instr) (s : State) (c : Condition) : Prop := exec i s = .next { s with status := .faulted c }

end Sys2Proof.Machine
end

