-- ==== Sys2Proof/Certificates/Slice0/Obligations.lean ====
section
/-! DEFINITION. The statements about the model, for the provers. Register operands are named by a register number
(`regOperand r`, every value 0 to 7); the operand bytes above 7 have statements of their own. -/

open Sys2Proof Sys2Proof.Machine

/-! ### Encoding and configuration -/

/-- Words written out from the formats (R56, R65) and the opcode map (R66) decode to the instruction they stand for, and
words that are none are rejected. The bytes of SUB, PUSH, CALL and NOT are PRESUMED (D2, log 2), that 0xC0 has three
operand bytes is the spec's own choice (D18, log 18), and `tableConfig`, which enables NOT, is the model's (log 22). That
0x00 is unrecognized rests on the empty `EXTENSIONS` of the default parameters, the spec's own choice (D13, log 4): R66
gives that byte to NOP. -/
def Obligations.WrittenOutWordsDecode : Prop :=
  decode defaultConfig [0b10000010, 0b00000000, 0b00001000] = .ok (.ldi 0 8, [])
  ∧ decode defaultConfig [0b01000111, 0b00000011, 0b11111111] = .ok (.prn 3, [0xFF])
  ∧ decode defaultConfig [0b00000001] = .ok (.hlt, [])
  ∧ decode defaultConfig [0b10100001, 0b00000111, 0b00000001] = .ok (.sub 7 1, [])
  ∧ decode defaultConfig [0b01000101, 0b00000010] = .ok (.push 2, [])
  ∧ decode defaultConfig [0b01010000, 0b00000100] = .ok (.call 4, [])
  ∧ decode tableConfig [0b01101001, 0b00000001] = .ok (.not 1, [])
  ∧ decode defaultConfig [0b00000000] = .error (.unrecognized 0x00)
  ∧ decode defaultConfig [0b11000000, 1, 2, 3] = .error (.unrecognized 0xC0)
  ∧ decode defaultConfig [0b10000010, 0b00000000] = .error (.truncated 0x82)

/-- Decoding an encoded instruction gives it back, for every valid configuration, every instruction it recognizes and
every operand byte, whatever bytes follow. -/
def Obligations.DecodeOfEncode : Prop :=
  ∀ (c : Config) (i : Instr) (rest : List Byte), c.valid = true → c.recognizes i.mnemonic = true →
    ∃ ws, encode c i = some ws ∧ decode c (ws ++ rest) = .ok (i, rest)

/-- Encoding a decoded instruction gives the bytes it was decoded from: each word has one meaning. -/
def Obligations.EncodeOfDecode : Prop :=
  ∀ (c : Config) (bytes rest : List Byte) (i : Instr), c.valid = true → decode c bytes = .ok (i, rest) →
    ∃ ws, encode c i = some ws ∧ bytes = ws ++ rest

/-- R57 and R59: bits 7:6 of the opcode of every instruction of the map are the number of its operand bytes, and the
size in bytes is that number plus 1. -/
def Obligations.OpcodeBitsGiveOperandCountAndSize : Prop :=
  ∀ (c : Config) (i : Instr) (op : Byte) (operands : List Byte), c.valid = true →
    encode c i = some (op :: operands) →
      op.toNat / 64 = operands.length ∧ opcodeSize op = operands.length + 1 ∧ i.size = (op :: operands).length

/-- The sets-PC bit (mask 0b00010000) is 1 for CALL, RET, the jumps, INT and IRET and 0 for every other instruction.
For RET, INT and IRET this is the spec's inference (R58, G3). -/
def Obligations.OpcodeBit4MarksControlFlow : Prop :=
  ∀ (c : Config) (i : Instr) (op : Byte) (operands : List Byte), c.valid = true →
    encode c i = some (op :: operands) →
      (op &&& 0b00010000 ≠ 0 ↔
        i.mnemonic ∈ [Mnemonic.CALL, .RET, .JMP, .JEQ, .JNE, .JGT, .JGE, .JLT, .JLE, .INT, .IRET])

/-- With the default parameters the recognized opcodes are exactly the 30 bytes listed in R70, an inference of the
spec from its opcode map (D2, log 2) and its empty `EXTENSIONS` (D13, log 4). -/
def Obligations.DefaultRecognizedOpcodes : Prop :=
  ∀ op : Byte, (defaultConfig.lookup op).isSome = true ↔
    op ∈ [(0x01 : Byte), 0x11, 0x13, 0x45, 0x46, 0x47, 0x48, 0x50, 0x52, 0x54, 0x55, 0x56, 0x57, 0x58, 0x59, 0x5A, 0x82,
      0x83, 0x84, 0xA0, 0xA1, 0xA2, 0xA3, 0xA4, 0xA7, 0xA8, 0xAA, 0xAB, 0xAC, 0xAD]

/-- The lookup selects by the whole opcode byte: in a valid configuration it finds a recognized instruction whose
byte it is, and nothing else (R61, R84). -/
def Obligations.LookupIsTheOpcodeMap : Prop :=
  ∀ (c : Config) (op : Byte) (m : Mnemonic), c.valid = true →
    (c.lookup op = some m ↔ c.opcodeOf m = some op ∧ c.recognizes m = true)

/-- An optional instruction is recognized exactly when it is in `EXTENSIONS`, and its byte is unrecognized otherwise
(R68, R70, R175); the byte of an ADDI that is not enabled is unrecognized when no other instruction has that byte. What
is enabled is the parameter of D13, and the byte of ADDI that of D14 (log 4). -/
def Obligations.ExtensionsRecognizedWhenEnabled : Prop :=
  ∀ c : Config, c.valid = true →
    c.lookup c.opcodes.NOP = (if c.extensions.NOP = true then some .NOP else none)
    ∧ c.lookup c.opcodes.INC = (if c.extensions.INC = true then some .INC else none)
    ∧ c.lookup c.opcodes.DEC = (if c.extensions.DEC = true then some .DEC else none)
    ∧ c.lookup c.opcodes.NOT = (if c.extensions.NOT = true then some .NOT else none)
    ∧ (∀ op, c.lookup op = some .ADDI ↔ c.extensions.ADDI = true ∧ c.addiOpcode = some op)
    ∧ (∀ q, c.extensions.ADDI = false → c.addiOpcode = some q → q ∉ c.opcodes.rows.map Prod.snd → c.lookup q = none)

/-- What the model takes for a valid configuration: no two instructions share a byte, each byte's bits 7:6 and bit 4 are
the instruction's (R9, R57, R58, R93), and, by the model's own choice, also this: the rows of optional instructions that
are not enabled are checked too, the bytes of LDI, PRN and HLT that R67 fixes are part of the check (log 3), and ADDI
enabled without an opcode is invalid, the model's reading of D14 (log 4). -/
def Obligations.ValidConfigurationMeans : Prop :=
  ∀ c : Config, c.valid = true ↔
    (∀ (m n : Mnemonic) (op : Byte), c.opcodeOf m = some op → c.opcodeOf n = some op → m = n)
    ∧ (∀ (m : Mnemonic) (op : Byte), c.opcodeOf m = some op →
        op.toNat / 64 = m.operandCount ∧ (op.toNat / 16 % 2 = 1 ↔ m.setsPc = true))
    ∧ c.opcodes.LDI = 0x82 ∧ c.opcodes.PRN = 0x47 ∧ c.opcodes.HLT = 0x01
    ∧ (c.extensions.ADDI = true → c.addiOpcode ≠ none)

/-! ### The step -/

/-- A step runs the decoded instruction: when the core is running and the bytes from the pc on decode to `i`, and all
of them lie in memory, `step` is `exec i`. That nothing is added around it is the model's form: in R80 the automatic
advance follows the instruction's rule, and in the model each meaning holds its own (DEDUCED, log 19). -/
def Obligations.StepRunsDecodedInstruction : Prop :=
  ∀ (s : State) (i : Instr) (op : Byte) (operands : List Byte), s.status = .running → s.cfg.valid = true →
    decode s.cfg (op :: operands) = .ok (i, []) → s.pc + operands.length < 256 →
    (∀ k : Nat, k ≤ operands.length → some (Memory.read s.mem (s.pc + k)) = (op :: operands)[k]?) →
    step s = exec i s

/-- R81: the opcode is the byte at address `pc`; a fetch at a pc outside [0, 256) raises `AddressOutOfRange(pc)` before
anything else happens; and the only such value a step leaves in `pc` is 0x100. -/
def Obligations.OpcodeFetch : Prop :=
  (∀ (s : State) (i : Instr), s.cfg.valid = true → fetch s = .ok i →
    s.pc < 256 ∧ ∃ operands, encode s.cfg i = some (Memory.read s.mem s.pc :: operands))
  ∧ (∀ s : State, s.status = .running → s.cfg.valid = true → 256 ≤ s.pc →
    step s = .next { s with status := .faulted (.addressOutOfRange s.pc) })
  ∧ (∀ s t : State, s.Inv → step s = .next t → 256 ≤ t.pc → t.pc = 0x100)

/-- R83: the operand bytes are those at `pc + 1` to `pc + n`, in rising order of address, n being bits 7:6 of the opcode;
the first of them outside memory, which is the one at 0x100, raises `AddressOutOfRange`, whatever the opcode; and the
bytes after them are not read. -/
def Obligations.OperandFetch : Prop :=
  (∀ (s : State) (i : Instr), s.cfg.valid = true → fetch s = .ok i →
    s.pc + (Memory.read s.mem s.pc).toNat / 64 < 256
    ∧ encode s.cfg i =
        some ((List.range ((Memory.read s.mem s.pc).toNat / 64 + 1)).map fun k => Memory.read s.mem (s.pc + k)))
  ∧ (∀ s : State, s.status = .running → s.cfg.valid = true → s.pc < 256 →
    256 ≤ s.pc + (Memory.read s.mem s.pc).toNat / 64 →
    step s = .next { s with status := .faulted (.addressOutOfRange 0x100) })
  ∧ (∀ (s : State) (m : Memory),
    (∀ k : Nat, k ≤ (Memory.read s.mem s.pc).toNat / 64 → Memory.read m (s.pc + k) = Memory.read s.mem (s.pc + k)) →
    fetch { s with mem := m } = fetch s)

/-- R194: an opcode that is not recognized raises `UnrecognizedOpcode(op)`, after the operand bytes its bits 7:6 call
for have been fetched, that is when they all lie in memory. -/
def Obligations.UnrecognizedOpcodeRaises : Prop :=
  ∀ s : State, s.status = .running → s.cfg.valid = true →
    s.pc + (Memory.read s.mem s.pc).toNat / 64 < 256 →
    s.cfg.lookup (Memory.read s.mem s.pc) = none →
    ∃ t, step s = .next t ∧ t.status = .faulted (.unrecognizedOpcode (Memory.read s.mem s.pc))

/-- R89: `Halted` and `Faulted` are terminal. No step exists from them, and a run of any length makes none. -/
def Obligations.TerminalStatesHaveNoStep : Prop :=
  (∀ s : State, s.status = .halted →
    step s = .fault .stepOfHalted ∧ ∀ k : Nat, Sys2Proof.core.run (k + 1) s = .fault .stepOfHalted)
  ∧ (∀ (s : State) (c : Condition), s.status = .faulted c →
    step s = .fault (.stepOfFaulted c) ∧ ∀ k : Nat, Sys2Proof.core.run (k + 1) s = .fault (.stepOfFaulted c))

/-- A running core with a valid configuration always takes a step, and a running core whose configuration is not valid
is refused; `step` refuses nowhere else. The refusal is the model's form of R9, R67 and R93 (log 3), and that ADDI enabled
without an opcode is refused too is the model's reading of D14 (log 4). -/
def Obligations.OnlyInvalidConfigurationRefused : Prop :=
  (∀ s : State, s.status = .running → s.cfg.valid = true → ∃ t, step s = .next t)
  ∧ (∀ (s : State) (r : Refusal), step s = .refused r ↔
      s.status = .running ∧ s.cfg.valid = false ∧ r = .invalidConfiguration)

/-- R86: an instruction whose opcode has bit 4 = 0 leaves the pc at its address plus its size, not wrapped, when it has
run without raising; HLT and the division-by-zero halt included. -/
def Obligations.AutomaticAdvance : Prop :=
  ∀ (i : Instr) (s t : State) (op : Byte) (operands : List Byte), s.status = .running → s.cfg.valid = true →
    encode s.cfg i = some (op :: operands) → op &&& 0b00010000 = 0 →
    exec i s = .next t → (∀ c, t.status ≠ .faulted c) → t.pc = s.pc + (op :: operands).length

/-- An instruction whose opcode has bit 4 = 1 is not advanced automatically (R87). It writes the pc itself on every path
that does not raise: a jump to a register's value, a return to the popped byte, or, for a conditional jump not taken
and for INT and IRET in `nop` mode, its address plus its size. The register is read after the instruction's other effects,
so that CALL R7 goes to the decremented `SP`, which is the spec's own choice (D25; log 16). -/
def Obligations.HandlerSetPc : Prop :=
  ∀ (i : Instr) (s t : State) (op : Byte) (operands : List Byte), s.status = .running → s.cfg.valid = true →
    encode s.cfg i = some (op :: operands) → op &&& 0b00010000 ≠ 0 →
    exec i s = .next t → (∀ c, t.status ≠ .faulted c) →
      (∃ (a : Byte) (r : Fin 8), operands = [a] ∧ a.toNat = r.val ∧ i ≠ .int a ∧ t.pc = (t.getReg r).toNat)
      ∨ (i = .ret ∧ t.pc = (Memory.read s.mem s.sp.toNat).toNat)
      ∨ (i.mnemonic ∈ [Mnemonic.JEQ, .JNE, .JGT, .JGE, .JLT, .JLE, .INT, .IRET]
          ∧ t.pc = s.pc + (op :: operands).length)

/-! ### Conditions -/

/-- Fault entry: a step that raises a fatal condition leaves every register, `FL`, every memory cell, `pc`, `out` and
`diag` as they were at its start. That the effects are discarded is the spec's own choice (R195, D6; log 7). -/
def Obligations.FaultDiscardsEffects : Prop :=
  (∀ (i : Instr) (s t : State) (c : Condition), s.status = .running → exec i s = .next t → t.status = .faulted c →
    t = { s with status := .faulted c })
  ∧ (∀ (s t : State) (c : Condition), step s = .next t → t.status = .faulted c → t = { s with status := .faulted c })

/-- The run status changes only as R94 tabulates, an inference of the spec: from `Running` to `Halted` by HLT or by a
DIV or MOD whose divisor is 0 (with one event, log 13), to `Faulted` by a fatal condition, and nothing else. -/
def Obligations.StatusTransitions : Prop :=
  ∀ (i : Instr) (s t : State), s.status = .running → exec i s = .next t →
    (t.status = .running ∧ t.diag = s.diag)
    ∨ (t.status = .halted ∧ i = .hlt ∧ t.diag = s.diag)
    ∨ (t.status = .halted ∧ t.diag = s.diag ++ [.divisionByZero]
        ∧ ∃ (a b : Byte) (r : Fin 8), (i = .div a b ∨ i = .mod a b) ∧ b.toNat = r.val ∧ s.getReg r = 0)
    ∨ (∃ c, t.status = .faulted c ∧ c.cls = .fatal ∧ t.diag = s.diag)

/-- `InvalidRegister(k)` is raised exactly when `k` is the first register operand above 7 (R193). An immediate operand
and the operand of INT never raise it. That the first such operand is the one reported, before every other check of the
instruction and in a jump that is not taken too, is the spec's own choice (R199, D7; log 14, 15). -/
def Obligations.InvalidRegisterRaisedExactly : Prop :=
  ∀ (i : Instr) (s : State) (k : Byte), s.status = .running →
    ((∃ t, exec i s = .next t ∧ t.status = .faulted (.invalidRegister k)) ↔
      i.regOperands.find? (fun r => decide (7 < r.toNat)) = some k)

/-- `AddressOutOfRange` records −1 or 0x100 and nothing else, in every step from a pc in [0, 256]; −1 only from PUSH or
CALL with `SP` = 0. The list of cases is the spec's inference (R192), and −1 and 0x100 rest on D4, D8, D9 (log 11). -/
def Obligations.AddressOutOfRangeCases : Prop :=
  ∀ (s t : State) (a : Int), s.pc ≤ 256 → step s = .next t → t.status = .faulted (.addressOutOfRange a) →
    (a = 0x100 ∨ (a = -1 ∧ s.sp = 0 ∧ ∃ i, fetch s = .ok i ∧ ((∃ r, i = .push r) ∨ (∃ r, i = .call r))))

/-- R113: no step raises `UnsupportedALUOperation`. -/
def Obligations.UnsupportedAluOperationNeverRaised : Prop :=
  ∀ s t : State, step s = .next t → t.status ≠ .faulted .unsupportedALUOperation

/-- The codes and classes of the conditions; the numbers are the spec's own choice (R191, D16; log 26). -/
def Obligations.ConditionCodes : Prop :=
  (∀ a, (Condition.addressOutOfRange a).code = 1 ∧ (Condition.addressOutOfRange a).cls = .fatal)
  ∧ (∀ r, (Condition.invalidRegister r).code = 2 ∧ (Condition.invalidRegister r).cls = .fatal)
  ∧ (∀ op, (Condition.unrecognizedOpcode op).code = 3 ∧ (Condition.unrecognizedOpcode op).cls = .fatal)
  ∧ (Condition.divisionByZero.code = 4 ∧ Condition.divisionByZero.cls = .recoverable)
  ∧ (∀ op, (Condition.reservedInstruction op).code = 5 ∧ (Condition.reservedInstruction op).cls = .fatal)
  ∧ (Condition.unsupportedALUOperation.code = 6 ∧ Condition.unsupportedALUOperation.cls = .fatal)
  ∧ (∀ n, (Condition.malformedProgram n).code = 7 ∧ (Condition.malformedProgram n).cls = .fatalAtLoad)
  ∧ (Condition.usageError.code = 8 ∧ Condition.usageError.cls = .userFacing)

/-- The diagnostic snapshot: the tuple of R203 for a faulted state, with the cells that exist, and none for a state
that is not faulted. Its content is the spec's own choice (D22; log 24). -/
def Obligations.SnapshotOfFaultedState : Prop :=
  (∀ (s : State) (c : Condition), s.status = .faulted c → ∃ n, s.diagnostic = some n ∧ n.pc = s.pc ∧ n.fl = s.fl
    ∧ (∀ r : Fin 8, n.x[r] = s.getReg r)
    ∧ (∀ k : Nat, n.cells[k]? = if k < 3 ∧ s.pc + k < 256 then some (Memory.read s.mem (s.pc + k)) else none))
  ∧ (∀ s : State, (∀ c, s.status ≠ .faulted c) → s.diagnostic = none)

/-! ### Reset and invariants -/

/-- The state after reset (R38, R215). That every cell is 0 and that `out` and `diag` are empty is the spec's own
choice (D5, D11, D17; log 10). The parameters stand in the model's own field `cfg` (log 1), with the defaults of R9: no
extension enabled and INT and IRET in `fault` mode, which are the spec's own choices (D12, D13; log 4, 5). -/
def Obligations.ResetValues : Prop :=
  (∀ r : Fin 8, State.reset.getReg r = if r = 7 then 0xF4 else 0x00)
  ∧ State.reset.pc = 0 ∧ State.reset.fl = 0x00 ∧ State.reset.status = .running
  ∧ (∀ a : Nat, Memory.read State.reset.mem a = 0x00) ∧ State.reset.out = [] ∧ State.reset.diag = []
  ∧ State.reset.cfg.valid = true ∧ State.reset.cfg.intIretMode = .fault
  ∧ (∀ m, State.reset.cfg.recognizes m = true ↔ m.group ≠ .extension)

/-- The invariant of the core holds after reset. -/
def Obligations.ResetMeetsInvariant : Prop := State.reset.Inv

/-- Every step keeps the invariant of the core: memory canonical and within its 256 cells, `pc` in [0, 256], `FL` one
of 0, L, G, E, a faulted core with a condition a step can raise and information in its range, and a diagnostic
channel that is empty or holds the one event of the division by zero that halted the core. That `pc` may be 0x100,
the positions of the flags and the form of the event are the spec's own choices (D3, D4, D11). -/
def Obligations.StepKeepsInvariant : Prop := ∀ s t : State, s.Inv → step s = .next t → t.Inv

/-- No instruction and no step changes the parameters; they are the model's own field (log 1). -/
def Obligations.ParametersNeverChange : Prop :=
  (∀ (i : Instr) (s t : State), exec i s = .next t → t.cfg = s.cfg)
  ∧ (∀ s t : State, step s = .next t → t.cfg = s.cfg)

/-- R30: only CMP writes `FL`; after it `FL` is L, G or E alone; `FL` is 0 at reset; and only the conditional jumps
read it: every other instruction does to a state with another `FL` what it does to the state itself. -/
def Obligations.OnlyCompareWritesFlags : Prop :=
  (∀ (i : Instr) (s t : State), exec i s = .next t → (∀ a b, i ≠ .cmp a b) → t.fl = s.fl)
  ∧ (∀ (a b : Byte) (s t : State), exec (.cmp a b) s = .next t → (∀ c, t.status ≠ .faulted c) →
      t.fl = 0x04 ∨ t.fl = 0x02 ∨ t.fl = 0x01)
  ∧ State.reset.fl = 0
  ∧ (∀ (i : Instr) (s t : State) (v : Byte), exec i s = .next t →
      i.mnemonic ∉ [Mnemonic.CMP, .JEQ, .JNE, .JGT, .JGE, .JLT, .JLE] →
      exec i { s with fl := v } = .next { t with fl := v })

/-- The output stream only grows, and only PRN and PRA append to it (R33, R123, R124). -/
def Obligations.OutputOnlyGrows : Prop :=
  (∀ (i : Instr) (s t : State), exec i s = .next t → (∀ a, i ≠ .prn a ∧ i ≠ .pra a) → t.out = s.out)
  ∧ (∀ s t : State, Reaches s t → ∃ w, t.out = s.out ++ w)

/-- Only ST, PUSH and CALL write memory (R42), and each writes at most the one byte at its address: `x[a]` for ST,
`x[7] - 1` for PUSH and CALL. -/
def Obligations.MemoryWrittenOnlyByStores : Prop :=
  ∀ (i : Instr) (s t : State), exec i s = .next t →
    ((∀ a b, i ≠ .st a b) → (∀ a, i ≠ .push a ∧ i ≠ .call a) → MemoryKept s t)
    ∧ (∀ (a b : Byte) (r : Fin 8), i = .st a b → a.toNat = r.val → MemoryKeptBut (s.getReg r).toNat s t)
    ∧ (∀ a : Byte, i = .push a ∨ i = .call a → MemoryKeptBut (s.sp.toNat - 1) s t)

/-- R40: a memory access outside [0, 256), below 0 included, fails with `AddressOutOfRange` of its address; a read in
range returns the byte of the cell and changes nothing; a write in range changes the one cell; and the only
instructions that raise the condition with an address below 0 are PUSH and CALL, with `SP` = 0. -/
def Obligations.MemoryInterface : Prop :=
  (∀ (a : Int) (v : Byte) (s : State), a < 0 ∨ 256 ≤ a →
    memRead a s = .error (.addressOutOfRange a) ∧ memWrite a v s = .error (.addressOutOfRange a))
  ∧ (∀ (a : Nat) (v : Byte) (s : State), a < 256 →
    memRead a s = .ok (Memory.read s.mem a)
    ∧ ∃ t, memWrite a v s = .ok t ∧ Memory.read t.mem a = v ∧ MemoryKeptBut a s t ∧ RegistersKept s t ∧ OthersKept s t
      ∧ t.pc = s.pc)
  ∧ (∀ (i : Instr) (s t : State) (a : Int), s.status = .running → exec i s = .next t →
    t.status = .faulted (.addressOutOfRange a) → a < 0 → s.sp = 0 ∧ ∃ r, i = .push r ∨ i = .call r)

/-- A store is seen by every later fetch (R50, an inference of the spec): a step that executes ST, PUSH or CALL leaves
the stored byte at the address stored to, and in every state in which that cell is as the store left it, the next state
first of all, a fetch that takes in that address, as the opcode or as an operand byte, gets the stored byte. ST and PUSH
complete as fetched even when they store into their own bytes. That PUSH R7 stores the decremented `SP` is the spec's own
choice (D25; log 16), as are the bounds of `SP` and of the return address (D8, D9; log 11). -/
def Obligations.StoreSeenByNextFetch : Prop :=
  ∀ (s : State) (i : Instr) (a : Nat) (v : Byte), s.status = .running → s.cfg.valid = true → fetch s = .ok i →
    ((∃ ra rb : Fin 8, i = .st (regOperand ra) (regOperand rb) ∧ a = (s.getReg ra).toNat ∧ v = s.getReg rb)
      ∨ (∃ r : Fin 8, i = .push (regOperand r) ∧ s.sp ≠ 0 ∧ a = s.sp.toNat - 1
          ∧ v = if r = 7 then s.sp - 1 else s.getReg r)
      ∨ (∃ r : Fin 8, i = .call (regOperand r) ∧ s.sp ≠ 0 ∧ s.pc + 2 < 256 ∧ a = s.sp.toNat - 1
          ∧ v.toNat = s.pc + 2)) →
    ∃ t, step s = .next t ∧ t.status = .running ∧ t.cfg = s.cfg ∧ memRead a t = .ok v
      ∧ (i.mnemonic ≠ .CALL → t.pc = s.pc + i.size)
      ∧ ∀ (u : State) (j : Instr) (k : Nat), u.cfg = s.cfg → Memory.read u.mem a = Memory.read t.mem a →
          fetch u = .ok j → u.pc + k = a → k < j.size → ∃ ws, encode u.cfg j = some ws ∧ ws[k]? = some v

/-! ### ALU -/

/-- For every ALU instruction that writes a register, `InvalidRegister(a)` is checked first, then
`InvalidRegister(b)`; otherwise the result is `trunc8` of the operation on the two values read before the write,
written back into `x[a]`; `x[b]`, `FL`, memory, output and everything else are as before. (DIV and MOD: for a divisor
other than 0; that a shift uses the whole amount is the spec's own choice, D10, log 12.) -/
def Obligations.AluCommonBehaviour : Prop :=
  ∀ row ∈ ([(.add, fun x y => x + y), (.sub, fun x y => x - y), (.mul, fun x y => x * y),
      (.div, fun x y => x / y), (.mod, fun x y => x % y),
      (.and, fun x y => (x.toNat &&& y.toNat : Nat)), (.or, fun x y => (x.toNat ||| y.toNat : Nat)),
      (.xor, fun x y => (x.toNat ^^^ y.toNat : Nat)),
      (.shl, fun x y => x * 2 ^ y.toNat), (.shr, fun x y => x / 2 ^ y.toNat)] :
      List ((Byte → Byte → Instr) × (Int → Int → Int))),
    ∀ s : State,
      (∀ a b : Byte, 7 < a.toNat → Raises (row.1 a b) s (.invalidRegister a))
      ∧ (∀ (ra : Fin 8) (b : Byte), 7 < b.toNat → Raises (row.1 (regOperand ra) b) s (.invalidRegister b))
      ∧ (∀ ra rb : Fin 8,
          ((row.1 = Instr.div ∨ row.1 = Instr.mod) → s.getReg rb ≠ 0) →
          ∃ v : Byte, (v.toNat : Int) = row.2 (s.getReg ra).toNat (s.getReg rb).toNat % 256
            ∧ WritesRegister (row.1 (regOperand ra) (regOperand rb)) s ra v 3)

/-- ADD, SUB and MUL: the sum, the difference and the product modulo 256; no flag and no carry is written. -/
def Obligations.AddSubMulResults : Prop :=
  ∀ (ra rb : Fin 8) (s : State),
    WritesRegister (.add (regOperand ra) (regOperand rb)) s ra
      (BitVec.ofNat 8 (((s.getReg ra).toNat + (s.getReg rb).toNat) % 256)) 3
    ∧ WritesRegister (.sub (regOperand ra) (regOperand rb)) s ra
      (BitVec.ofNat 8 (((s.getReg ra).toNat + 256 - (s.getReg rb).toNat) % 256)) 3
    ∧ WritesRegister (.mul (regOperand ra) (regOperand rb)) s ra
      (BitVec.ofNat 8 (((s.getReg ra).toNat * (s.getReg rb).toNat) % 256)) 3

/-- DIV and MOD with a divisor other than 0: the quotient q and the remainder r with dividend = q * divisor + r and
r below the divisor. -/
def Obligations.DivModResults : Prop :=
  ∀ (ra rb : Fin 8) (s : State), s.getReg rb ≠ 0 →
    ∃ q r : Byte, (s.getReg ra).toNat = q.toNat * (s.getReg rb).toNat + r.toNat ∧ r.toNat < (s.getReg rb).toNat
      ∧ WritesRegister (.div (regOperand ra) (regOperand rb)) s ra q 3
      ∧ WritesRegister (.mod (regOperand ra) (regOperand rb)) s ra r 3

/-- DIV and MOD with a divisor of 0 are no fault: one `DivisionByZero` event, status `Halted`, pc advanced by 3, every
register, `FL`, memory and `out` as before. The event's form and channel are the spec's own choice (D11; log 13). -/
def Obligations.DivisionByZeroHalts : Prop :=
  ∀ (ra rb : Fin 8) (s : State), s.getReg rb = 0 →
    ∀ i ∈ [Instr.div (regOperand ra) (regOperand rb), Instr.mod (regOperand ra) (regOperand rb)],
      ∃ t, exec i s = .next t ∧ t.status = .halted ∧ t.diag = s.diag ++ [.divisionByZero] ∧ t.pc = s.pc + 3
        ∧ RegistersKept s t ∧ t.fl = s.fl ∧ MemoryKept s t ∧ t.out = s.out ∧ t.cfg = s.cfg

/-- AND, OR and XOR, bit by bit. -/
def Obligations.LogicResults : Prop :=
  ∀ (ra rb : Fin 8) (s : State),
    (∃ v : Byte, (∀ k : Nat, v.getLsbD k = ((s.getReg ra).getLsbD k && (s.getReg rb).getLsbD k))
      ∧ WritesRegister (.and (regOperand ra) (regOperand rb)) s ra v 3)
    ∧ (∃ v : Byte, (∀ k : Nat, v.getLsbD k = ((s.getReg ra).getLsbD k || (s.getReg rb).getLsbD k))
      ∧ WritesRegister (.or (regOperand ra) (regOperand rb)) s ra v 3)
    ∧ (∃ v : Byte, (∀ k : Nat, v.getLsbD k = ((s.getReg ra).getLsbD k ^^ (s.getReg rb).getLsbD k))
      ∧ WritesRegister (.xor (regOperand ra) (regOperand rb)) s ra v 3)

/-- SHL and SHR: the amount is the whole byte, bits shifted out are lost, zeros enter, and an amount of 8 or more gives
0. The amounts from 8 on and the logical right shift are the spec's own choice (D10; log 12). -/
def Obligations.ShiftResults : Prop :=
  ∀ (ra rb : Fin 8) (s : State),
    (∃ v : Byte, (∀ k : Nat, k < 8 → v.getLsbD k =
        (decide ((s.getReg rb).toNat ≤ k) && (s.getReg ra).getLsbD (k - (s.getReg rb).toNat)))
      ∧ (8 ≤ (s.getReg rb).toNat → v = 0)
      ∧ WritesRegister (.shl (regOperand ra) (regOperand rb)) s ra v 3)
    ∧ (∃ v : Byte, (∀ k : Nat, k < 8 → v.getLsbD k = (s.getReg ra).getLsbD (k + (s.getReg rb).toNat))
      ∧ (8 ≤ (s.getReg rb).toNat → v = 0)
      ∧ WritesRegister (.shr (regOperand ra) (regOperand rb)) s ra v 3)

/-- CMP replaces all of `FL` by L, G or E alone, by unsigned comparison, and changes nothing else; a register operand
above 7 raises. The bit positions are the spec's own choice (D3; log 8). -/
def Obligations.CompareSetsFlags : Prop :=
  ∀ s : State,
    (∀ ra rb : Fin 8, ∃ t, exec (.cmp (regOperand ra) (regOperand rb)) s = .next t
      ∧ ((s.getReg ra).toNat < (s.getReg rb).toNat → t.fl = 0b100)
      ∧ ((s.getReg ra).toNat > (s.getReg rb).toNat → t.fl = 0b010)
      ∧ ((s.getReg ra).toNat = (s.getReg rb).toNat → t.fl = 0b001)
      ∧ RegistersKept s t ∧ MemoryKept s t ∧ t.status = s.status ∧ t.out = s.out ∧ t.diag = s.diag ∧ t.cfg = s.cfg
      ∧ t.pc = s.pc + 3)
    ∧ (∀ a b : Byte, 7 < a.toNat → Raises (.cmp a b) s (.invalidRegister a))
    ∧ (∀ (ra : Fin 8) (b : Byte), 7 < b.toNat → Raises (.cmp (regOperand ra) b) s (.invalidRegister b))

/-! ### Data movement, output, halt -/

/-- R120: LDI is the byte 0x82, the register and the immediate, in every valid configuration; it sets `x[a]` to the
immediate, whichever of the 256 values it is, and changes no other register and no flag; a register above 7 raises. -/
def Obligations.LoadImmediate : Prop :=
  (∀ (c : Config) (a imm : Byte), c.valid = true → encode c (.ldi a imm) = some [0b10000010, a, imm])
  ∧ (∀ (r : Fin 8) (imm : Byte) (s : State), WritesRegister (.ldi (regOperand r) imm) s r imm 3)
  ∧ (∀ (a imm : Byte) (s : State), 7 < a.toNat → Raises (.ldi a imm) s (.invalidRegister a))

/-- LD: `x[a]` becomes the byte at address `x[b]`, for every address, with no fault. -/
def Obligations.LoadFromMemory : Prop :=
  ∀ (ra rb : Fin 8) (s : State),
    WritesRegister (.ld (regOperand ra) (regOperand rb)) s ra (Memory.read s.mem (s.getReg rb).toNat) 3

/-- ST: the byte at address `x[a]` becomes `x[b]`, for every address, with no fault, and nothing else changes. -/
def Obligations.StoreToMemory : Prop :=
  ∀ (ra rb : Fin 8) (s : State), ∃ t, exec (.st (regOperand ra) (regOperand rb)) s = .next t
    ∧ Memory.read t.mem (s.getReg ra).toNat = s.getReg rb ∧ MemoryKeptBut (s.getReg ra).toNat s t
    ∧ RegistersKept s t ∧ OthersKept s t ∧ t.pc = s.pc + 3

/-- PRN appends the decimal numeral of `x[a]` (digits 0x30 to 0x39, no leading zero) and one newline, and PRA the one
character `x[a]`; neither changes anything else. That the numeral is unsigned is the spec's own choice (D17). -/
def Obligations.OutputInstructions : Prop :=
  ∀ (r : Fin 8) (s : State),
    (∃ (t : State) (ds : List Byte), exec (.prn (regOperand r)) s = .next t ∧ t.out = s.out ++ ds ++ [0x0A]
      ∧ ds ≠ [] ∧ (∀ d ∈ ds, 0x30 ≤ d.toNat ∧ d.toNat ≤ 0x39) ∧ (ds.head? = some 0x30 → ds = [0x30])
      ∧ ds.foldl (fun n d => 10 * n + (d.toNat - 0x30)) 0 = (s.getReg r).toNat
      ∧ RegistersKept s t ∧ MemoryKept s t ∧ t.fl = s.fl ∧ t.status = s.status ∧ t.diag = s.diag ∧ t.cfg = s.cfg
      ∧ t.pc = s.pc + 2)
    ∧ (∃ t : State, exec (.pra (regOperand r)) s = .next t ∧ t.out = s.out ++ [s.getReg r]
      ∧ RegistersKept s t ∧ MemoryKept s t ∧ t.fl = s.fl ∧ t.status = s.status ∧ t.diag = s.diag ∧ t.cfg = s.cfg
      ∧ t.pc = s.pc + 2)

/-- R125: HLT is the one byte 0x01 in every valid configuration; it sets the status to `Halted` and leaves the pc past
itself, at 0x100 too; nothing else changes, and from there no step exists. -/
def Obligations.HaltStopsPastItself : Prop :=
  (∀ c : Config, c.valid = true → encode c .hlt = some [0b00000001])
  ∧ (∀ s : State, ∃ t, exec .hlt s = .next t ∧ t.status = .halted ∧ t.pc = s.pc + 1 ∧ RegistersKept s t
      ∧ MemoryKept s t ∧ t.fl = s.fl ∧ t.out = s.out ∧ t.diag = s.diag ∧ t.cfg = s.cfg ∧ ∀ u, step t ≠ .next u)

/-! ### Stack -/

/-- PUSH with `SP` above 0: `SP` goes down by 1 and the register is stored at the new `SP`; PUSH R7 stores the
decremented `SP`, which is the spec's own choice (D25; log 16). -/
def Obligations.PushStores : Prop :=
  ∀ (r : Fin 8) (s : State), s.sp ≠ 0 → ∃ t, exec (.push (regOperand r)) s = .next t
    ∧ t.sp.toNat = s.sp.toNat - 1 ∧ Memory.read t.mem (s.sp.toNat - 1) = (if r = 7 then t.sp else s.getReg r)
    ∧ MemoryKeptBut (s.sp.toNat - 1) s t ∧ RegistersKeptBut [7] s t ∧ OthersKept s t ∧ t.pc = s.pc + 2

/-- POP, when the incremented value is a byte: the register gets the byte at `SP` and `SP` goes up by 1 after that, so
that POP R7 leaves the popped byte plus 1, which is the spec's own choice (D25; log 16); the slot keeps its byte. -/
def Obligations.PopLoads : Prop :=
  (∀ (r : Fin 8) (s : State), r ≠ 7 → s.sp ≠ 0xFF → ∃ t, exec (.pop (regOperand r)) s = .next t
    ∧ t.getReg r = Memory.read s.mem s.sp.toNat ∧ t.sp.toNat = s.sp.toNat + 1
    ∧ RegistersKeptBut [r, 7] s t ∧ MemoryKept s t ∧ OthersKept s t ∧ t.pc = s.pc + 2)
  ∧ (∀ s : State, Memory.read s.mem s.sp.toNat ≠ 0xFF → ∃ t, exec (.pop (regOperand 7)) s = .next t
    ∧ t.sp.toNat = (Memory.read s.mem s.sp.toNat).toNat + 1
    ∧ RegistersKeptBut [7] s t ∧ MemoryKept s t ∧ OthersKept s t ∧ t.pc = s.pc + 2)

/-- The stack pointer's bounds: PUSH and CALL with `SP` = 0 raise `AddressOutOfRange(-1)`, and a POP or RET that would
leave `SP` = 0x100 raises `AddressOutOfRange(0x100)`, with every effect discarded. These bounds are the spec's own
choice (D8; log 11), and so is it that the register a POP has written is undone (R195, D6; log 7). That POP R7 raises for a popped 0xFF rests on the order of its effects (D25; log 16), and that a CALL
looks at `SP` only when its return address is a byte on the order of its checks (R199, D7, D9; log 11, 15). -/
def Obligations.StackBoundsRaise : Prop :=
  (∀ (r : Fin 8) (s : State), s.sp = 0 → Raises (.push (regOperand r)) s (.addressOutOfRange (-1)))
  ∧ (∀ (r : Fin 8) (s : State), s.sp = 0 → s.pc + 2 < 256 →
      Raises (.call (regOperand r)) s (.addressOutOfRange (-1)))
  ∧ (∀ (r : Fin 8) (s : State), r ≠ 7 → s.sp = 0xFF → Raises (.pop (regOperand r)) s (.addressOutOfRange 0x100))
  ∧ (∀ s : State, Memory.read s.mem s.sp.toNat = 0xFF → Raises (.pop (regOperand 7)) s (.addressOutOfRange 0x100))
  ∧ (∀ s : State, s.sp = 0xFF → Raises .ret s (.addressOutOfRange 0x100))

/-- A push followed at once by a pop: the popped register gets the pushed value and `SP` its value before the push, for
every pair of registers but a pop into R7 of another register's value (R140, an inference of the spec; C2). The value
that a push of R7 pushes is the decremented `SP`, and that a push and a pop of R7 restore `SP` rests on the same order of
effects, the spec's own choice (D25; log 16). -/
def Obligations.PushPopRestores : Prop :=
  ∀ (r q : Fin 8) (s : State), s.sp ≠ 0 → (q ≠ 7 ∨ r = 7) →
    ∃ t u, exec (.push (regOperand r)) s = .next t ∧ exec (.pop (regOperand q)) t = .next u
      ∧ u.sp = s.sp ∧ (r ≠ 7 → u.getReg q = s.getReg r) ∧ (r = 7 → q ≠ 7 → (u.getReg q).toNat = s.sp.toNat - 1)
      ∧ RegistersKeptBut [q] s u ∧ OthersKept s u ∧ MemoryKeptBut (s.sp.toNat - 1) s u

/-! ### Control flow -/

/-- CALL, when the return address is a byte and `SP` is not 0: the address after the CALL is pushed and the pc becomes
the register's value, read after the push. A CALL whose return address is no byte raises `AddressOutOfRange` of it
before `SP` is looked at. The order and that condition are the spec's own choices (D7, D9, D25; log 11, 15, 16). -/
def Obligations.CallPushesReturnAddress : Prop :=
  (∀ (r : Fin 8) (s : State), s.sp ≠ 0 → s.pc + 2 < 256 → ∃ t, exec (.call (regOperand r)) s = .next t
    ∧ t.sp.toNat = s.sp.toNat - 1 ∧ (Memory.read t.mem (s.sp.toNat - 1)).toNat = s.pc + 2
    ∧ t.pc = (if r = 7 then s.sp.toNat - 1 else (s.getReg r).toNat)
    ∧ MemoryKeptBut (s.sp.toNat - 1) s t ∧ RegistersKeptBut [7] s t ∧ OthersKept s t)
  ∧ (∀ (r : Fin 8) (s : State), 256 ≤ s.pc + 2 →
    Raises (.call (regOperand r)) s (.addressOutOfRange ((s.pc + 2 : Nat) : Int)))

/-- RET, with `SP` below 0xFF: the pc becomes the byte at `SP`, and `SP` goes up by 1; nothing else changes. -/
def Obligations.ReturnPopsPc : Prop :=
  ∀ s : State, s.sp ≠ 0xFF → ∃ t, exec .ret s = .next t
    ∧ t.pc = (Memory.read s.mem s.sp.toNat).toNat ∧ t.sp.toNat = s.sp.toNat + 1
    ∧ RegistersKeptBut [7] s t ∧ MemoryKept s t ∧ OthersKept s t

/-- R163: CALL pushes the address after it and jumps, and a later RET in a state in which `SP` and the pushed byte are
as CALL left them restores the pc to that address and `SP` to its value before the call. -/
def Obligations.CallReturnConvention : Prop :=
  ∀ (r : Fin 8) (s : State), s.sp ≠ 0 → s.pc + 2 < 256 →
    ∃ t, exec (.call (regOperand r)) s = .next t ∧ (r ≠ 7 → t.pc = (s.getReg r).toNat)
      ∧ (Memory.read t.mem t.sp.toNat).toNat = s.pc + 2
      ∧ ∀ u : State, u.sp = t.sp → Memory.read u.mem u.sp.toNat = Memory.read t.mem t.sp.toNat →
        ∃ w, exec .ret u = .next w ∧ w.pc = s.pc + 2 ∧ w.sp = s.sp

/-- JMP: the pc becomes `x[a]`; nothing else changes. -/
def Obligations.JumpSetsPc : Prop :=
  ∀ (r : Fin 8) (s : State), OnlyMovesPc (.jmp (regOperand r)) s (s.getReg r).toNat

/-- The conditional jumps, for every value of `FL`: to `x[a]` when the test on the flags holds, else past the jump;
nothing else changes. The tests, in particular JNE as "E = 0", are PRESUMED by the spec (R160, D15; log 14), and that L,
G and E are bits 2, 1 and 0 of `FL` is the spec's own choice (R29, D3; log 8). -/
def Obligations.ConditionalJumps : Prop :=
  ∀ (r : Fin 8) (s : State) (l g e : Bool), s.fl.getLsbD 2 = l → s.fl.getLsbD 1 = g → s.fl.getLsbD 0 = e →
    OnlyMovesPc (.jeq (regOperand r)) s (if e = true then (s.getReg r).toNat else s.pc + 2)
    ∧ OnlyMovesPc (.jne (regOperand r)) s (if e = true then s.pc + 2 else (s.getReg r).toNat)
    ∧ OnlyMovesPc (.jgt (regOperand r)) s (if g = true then (s.getReg r).toNat else s.pc + 2)
    ∧ OnlyMovesPc (.jge (regOperand r)) s (if g = true ∨ e = true then (s.getReg r).toNat else s.pc + 2)
    ∧ OnlyMovesPc (.jlt (regOperand r)) s (if l = true then (s.getReg r).toNat else s.pc + 2)
    ∧ OnlyMovesPc (.jle (regOperand r)) s (if l = true ∨ e = true then (s.getReg r).toNat else s.pc + 2)

/-- A compare and a conditional jump after it together branch on the unsigned order of the two registers. The flag
tests are PRESUMED by the spec (R160; log 14). -/
def Obligations.CompareThenJump : Prop :=
  ∀ (ra rb r : Fin 8) (s : State), ∃ t, exec (.cmp (regOperand ra) (regOperand rb)) s = .next t
    ∧ OnlyMovesPc (.jeq (regOperand r)) t (if s.getReg ra = s.getReg rb then (s.getReg r).toNat else s.pc + 5)
    ∧ OnlyMovesPc (.jne (regOperand r)) t (if s.getReg ra ≠ s.getReg rb then (s.getReg r).toNat else s.pc + 5)
    ∧ OnlyMovesPc (.jgt (regOperand r)) t
        (if (s.getReg ra).toNat > (s.getReg rb).toNat then (s.getReg r).toNat else s.pc + 5)
    ∧ OnlyMovesPc (.jge (regOperand r)) t
        (if (s.getReg ra).toNat ≥ (s.getReg rb).toNat then (s.getReg r).toNat else s.pc + 5)
    ∧ OnlyMovesPc (.jlt (regOperand r)) t
        (if (s.getReg ra).toNat < (s.getReg rb).toNat then (s.getReg r).toNat else s.pc + 5)
    ∧ OnlyMovesPc (.jle (regOperand r)) t
        (if (s.getReg ra).toNat ≤ (s.getReg rb).toNat then (s.getReg r).toNat else s.pc + 5)

/-- INT and IRET: in `nop` mode only the pc moves past them, whatever INT's operand byte; in `fault` mode they raise
`ReservedInstruction` of their opcode byte (0x52 and 0x13 by default). The mode and its default are the spec's own
choice (D12; log 5, 20), and the two default bytes are PRESUMED (D2; log 2). -/
def Obligations.ReservedInstructions : Prop :=
  (∀ (a : Byte) (s : State), s.cfg.intIretMode = .nop → OnlyMovesPc (.int a) s (s.pc + 2))
  ∧ (∀ s : State, s.cfg.intIretMode = .nop → OnlyMovesPc .iret s (s.pc + 1))
  ∧ (∀ (a op : Byte) (s : State), s.cfg.intIretMode = .fault → s.cfg.opcodeOf .INT = some op →
      Raises (.int a) s (.reservedInstruction op))
  ∧ (∀ (op : Byte) (s : State), s.cfg.intIretMode = .fault → s.cfg.opcodeOf .IRET = some op →
      Raises .iret s (.reservedInstruction op))
  ∧ defaultConfig.opcodeOf .INT = some 0x52 ∧ defaultConfig.opcodeOf .IRET = some 0x13

/-! ### Extensions -/

/-- INC, DEC, NOT, ADDI and NOP. Their meanings are PRESUMED by the spec (G8; log 28); INC R7 and DEC R7 wrap, with no
stack check. -/
def Obligations.ExtensionResults : Prop :=
  ∀ (r : Fin 8) (imm : Byte) (s : State),
    WritesRegister (.inc (regOperand r)) s r (BitVec.ofNat 8 (((s.getReg r).toNat + 1) % 256)) 2
    ∧ WritesRegister (.dec (regOperand r)) s r (BitVec.ofNat 8 (((s.getReg r).toNat + 255) % 256)) 2
    ∧ WritesRegister (.not (regOperand r)) s r (BitVec.ofNat 8 (255 - (s.getReg r).toNat)) 2
    ∧ WritesRegister (.addi (regOperand r) imm) s r (BitVec.ofNat 8 (((s.getReg r).toNat + imm.toNat) % 256)) 3
    ∧ OnlyMovesPc .nop s (s.pc + 1)

/-! ### Loading -/

/-- The loader writes the image from address 0 and changes nothing else, for every image of up to 256 bytes; a longer
one fails with `AddressOutOfRange(256)`. The reset content of the cells above the image and that condition are the
spec's own choices (R216, R217, D5, D21; log 10, 23); that a failed load leaves only it is the model's (log 32). -/
def Obligations.LoadPlacesImage : Prop :=
  ∀ (img : List Byte) (s : State),
    (img.length ≤ 256 → ∃ t, load img s = .ok t
      ∧ (∀ a : Nat, Memory.read t.mem a = (img[a]?).getD (Memory.read s.mem a))
      ∧ RegistersKept s t ∧ OthersKept s t ∧ t.pc = s.pc)
    ∧ (256 < img.length → load img s = .error (.addressOutOfRange 256))

/-- A line that is neither empty nor exactly 8 binary digits after its comment and the white space around it are
stripped is a fatal load-time condition, and no run starts (R219). The model's own choices in it: only space, tab, carriage
return and line feed are white space, so that 8 digits beside any other blank are malformed (log 31); the whole text is
parsed before anything is loaded, so that a malformed line is reported also after more than 256 bytes, and the number it
carries counts lines from 1 (log 23); and only the condition is left (log 32). -/
def Obligations.MalformedLineIsFatal : Prop :=
  ∀ (before after : List (List Char)) (line : List Char) (img : List Byte) (stop : Bool),
    parseProgram before = .ok img → stripLine line ≠ [] →
    ¬ ((stripLine line).length = 8 ∧ ∀ c ∈ stripLine line, c = '0' ∨ c = '1') →
    boot (some (before ++ line :: after)) stop = .error (.malformedProgram (before.length + 1))

/-- The host's stop request before the run leaves a halted core that takes no step, with the loaded state otherwise as
it was (R221, the spec's own choice D24; log 25). -/
def Obligations.StopRequestBeforeRun : Prop :=
  ∀ (lines : List (List Char)) (s : State), boot (some lines) false = .ok s →
    boot (some lines) true = .ok { s with status := .halted } ∧ ∀ t, step { s with status := .halted } ≠ .next t
end

