-- ==== Sys2Proof/Laws/PerInstr.lean ====
section
/-! SUPPORT. Facts about every instruction as syntax, one lemma per constructor. -/

namespace Sys2Proof.Laws

/-- An instruction is its name and its operand bytes, and has as many of them as the table says (R57, R63, R66). -/
def Reassembly.Statement (i : Instr) : Prop :=
  assemble i.mnemonic (i.operands.getD 0 0) (i.operands.getD 1 0) = i
    ∧ i.operands.length = i.mnemonic.operandCount

theorem Reassembly.nop : Reassembly.Statement .nop := ⟨rfl, rfl⟩

theorem Reassembly.hlt : Reassembly.Statement .hlt := ⟨rfl, rfl⟩

theorem Reassembly.ret : Reassembly.Statement .ret := ⟨rfl, rfl⟩

theorem Reassembly.iret : Reassembly.Statement .iret := ⟨rfl, rfl⟩

theorem Reassembly.push (a : Byte) : Reassembly.Statement (.push a) := ⟨rfl, rfl⟩

theorem Reassembly.pop (a : Byte) : Reassembly.Statement (.pop a) := ⟨rfl, rfl⟩

theorem Reassembly.prn (a : Byte) : Reassembly.Statement (.prn a) := ⟨rfl, rfl⟩

theorem Reassembly.pra (a : Byte) : Reassembly.Statement (.pra a) := ⟨rfl, rfl⟩

theorem Reassembly.call (a : Byte) : Reassembly.Statement (.call a) := ⟨rfl, rfl⟩

theorem Reassembly.int (a : Byte) : Reassembly.Statement (.int a) := ⟨rfl, rfl⟩

theorem Reassembly.jmp (a : Byte) : Reassembly.Statement (.jmp a) := ⟨rfl, rfl⟩

theorem Reassembly.jeq (a : Byte) : Reassembly.Statement (.jeq a) := ⟨rfl, rfl⟩

theorem Reassembly.jne (a : Byte) : Reassembly.Statement (.jne a) := ⟨rfl, rfl⟩

theorem Reassembly.jgt (a : Byte) : Reassembly.Statement (.jgt a) := ⟨rfl, rfl⟩

theorem Reassembly.jlt (a : Byte) : Reassembly.Statement (.jlt a) := ⟨rfl, rfl⟩

theorem Reassembly.jle (a : Byte) : Reassembly.Statement (.jle a) := ⟨rfl, rfl⟩

theorem Reassembly.jge (a : Byte) : Reassembly.Statement (.jge a) := ⟨rfl, rfl⟩

theorem Reassembly.inc (a : Byte) : Reassembly.Statement (.inc a) := ⟨rfl, rfl⟩

theorem Reassembly.dec (a : Byte) : Reassembly.Statement (.dec a) := ⟨rfl, rfl⟩

theorem Reassembly.not (a : Byte) : Reassembly.Statement (.not a) := ⟨rfl, rfl⟩

theorem Reassembly.ldi (a imm : Byte) : Reassembly.Statement (.ldi a imm) := ⟨rfl, rfl⟩

theorem Reassembly.ld (a b : Byte) : Reassembly.Statement (.ld a b) := ⟨rfl, rfl⟩

theorem Reassembly.st (a b : Byte) : Reassembly.Statement (.st a b) := ⟨rfl, rfl⟩

theorem Reassembly.add (a b : Byte) : Reassembly.Statement (.add a b) := ⟨rfl, rfl⟩

theorem Reassembly.sub (a b : Byte) : Reassembly.Statement (.sub a b) := ⟨rfl, rfl⟩

theorem Reassembly.mul (a b : Byte) : Reassembly.Statement (.mul a b) := ⟨rfl, rfl⟩

theorem Reassembly.div (a b : Byte) : Reassembly.Statement (.div a b) := ⟨rfl, rfl⟩

theorem Reassembly.mod (a b : Byte) : Reassembly.Statement (.mod a b) := ⟨rfl, rfl⟩

theorem Reassembly.cmp (a b : Byte) : Reassembly.Statement (.cmp a b) := ⟨rfl, rfl⟩

theorem Reassembly.and (a b : Byte) : Reassembly.Statement (.and a b) := ⟨rfl, rfl⟩

theorem Reassembly.or (a b : Byte) : Reassembly.Statement (.or a b) := ⟨rfl, rfl⟩

theorem Reassembly.xor (a b : Byte) : Reassembly.Statement (.xor a b) := ⟨rfl, rfl⟩

theorem Reassembly.shl (a b : Byte) : Reassembly.Statement (.shl a b) := ⟨rfl, rfl⟩

theorem Reassembly.shr (a b : Byte) : Reassembly.Statement (.shr a b) := ⟨rfl, rfl⟩

theorem Reassembly.addi (a imm : Byte) : Reassembly.Statement (.addi a imm) := ⟨rfl, rfl⟩

/-- Every instruction, by its own lemma. -/
theorem Reassembly.all (i : Instr) : Reassembly.Statement i := by
  cases i with
  | nop => exact Reassembly.nop
  | hlt => exact Reassembly.hlt
  | ret => exact Reassembly.ret
  | iret => exact Reassembly.iret
  | push a => exact Reassembly.push a
  | pop a => exact Reassembly.pop a
  | prn a => exact Reassembly.prn a
  | pra a => exact Reassembly.pra a
  | call a => exact Reassembly.call a
  | int a => exact Reassembly.int a
  | jmp a => exact Reassembly.jmp a
  | jeq a => exact Reassembly.jeq a
  | jne a => exact Reassembly.jne a
  | jgt a => exact Reassembly.jgt a
  | jlt a => exact Reassembly.jlt a
  | jle a => exact Reassembly.jle a
  | jge a => exact Reassembly.jge a
  | inc a => exact Reassembly.inc a
  | dec a => exact Reassembly.dec a
  | not a => exact Reassembly.not a
  | ldi a imm => exact Reassembly.ldi a imm
  | ld a b => exact Reassembly.ld a b
  | st a b => exact Reassembly.st a b
  | add a b => exact Reassembly.add a b
  | sub a b => exact Reassembly.sub a b
  | mul a b => exact Reassembly.mul a b
  | div a b => exact Reassembly.div a b
  | mod a b => exact Reassembly.mod a b
  | cmp a b => exact Reassembly.cmp a b
  | and a b => exact Reassembly.and a b
  | or a b => exact Reassembly.or a b
  | xor a b => exact Reassembly.xor a b
  | shl a b => exact Reassembly.shl a b
  | shr a b => exact Reassembly.shr a b
  | addi a imm => exact Reassembly.addi a imm

end Sys2Proof.Laws
end

