-- ==== Sys2Proof/Laws/Decode.lean ====
section
/-! SUPPORT. The opcode map and the lookup: what a row of the table says, and that a valid table is unambiguous. -/

namespace Sys2Proof

/-! ### The rows of the table -/

theorem allDistinct_iff (l : List Byte) : allDistinct l = true ↔ l.Nodup := by
  induction l with
  | nil => simp [allDistinct]
  | cons b l ih => simp [allDistinct, ih]

theorem Config.mem_addiRow (c : Config) (m : Mnemonic) (op : Byte) :
    (m, op) ∈ c.addiRow ↔ m = .ADDI ∧ c.extensions.ADDI = true ∧ c.addiOpcode = some op := by
  unfold Config.addiRow
  split
  · rename_i q he ha
    simp [he, ha, eq_comm]
  · rename_i hne
    constructor
    · simp
    · rintro ⟨-, he, ha⟩
      exact absurd ha (hne op he)

/-- No row of `OPCODE_MAP` is ADDI's, whose byte is a parameter of its own. -/
theorem OpcodeMap.addi_not_mem (o : OpcodeMap) : Mnemonic.ADDI ∉ o.rows.map Prod.fst := by
  simp [OpcodeMap.rows]

theorem OpcodeMap.rows_nodup (o : OpcodeMap) : (o.rows.map Prod.fst).Nodup := by
  simp [OpcodeMap.rows]

/-- An instruction name has one row. -/
theorem Config.row_unique (c : Config) {m : Mnemonic} {p q : Byte} (hp : (m, p) ∈ c.rows) (hq : (m, q) ∈ c.rows) :
    p = q := by
  have inMap : ∀ {r : Byte}, (m, r) ∈ c.opcodes.rows → m ∈ c.opcodes.rows.map Prod.fst :=
    fun h => List.mem_map.2 ⟨_, h, rfl⟩
  rcases List.mem_append.1 hp with hp | hp <;> rcases List.mem_append.1 hq with hq | hq
  · have := List.inj_on_of_nodup_map c.opcodes.rows_nodup hp hq rfl
    exact congrArg Prod.snd this
  · rw [((c.mem_addiRow m q).1 hq).1] at inMap hp
    exact absurd (inMap hp) c.opcodes.addi_not_mem
  · rw [((c.mem_addiRow m p).1 hp).1] at inMap hq
    exact absurd (inMap hq) c.opcodes.addi_not_mem
  · have h₁ := ((c.mem_addiRow m p).1 hp).2.2
    have h₂ := ((c.mem_addiRow m q).1 hq).2.2
    exact Option.some.inj (h₁.symm.trans h₂)

theorem Config.opcodeOf_eq_some (c : Config) (m : Mnemonic) (op : Byte) :
    c.opcodeOf m = some op ↔ (m, op) ∈ c.rows := by
  unfold Config.opcodeOf
  constructor
  · intro h
    obtain ⟨r, hr, rfl⟩ := Option.map_eq_some_iff.1 h
    have hm : r.1 = m := by simpa using List.find?_some hr
    exact hm ▸ List.mem_of_find?_eq_some hr
  · intro h
    cases hf : c.rows.find? fun r => r.1 == m with
    | none => exact absurd (List.find?_eq_none.1 hf _ h) (by simp)
    | some r =>
      have hm : r.1 = m := by simpa using List.find?_some hf
      have hr : (m, r.2) ∈ c.rows := hm ▸ List.mem_of_find?_eq_some hf
      rw [Option.map_some, c.row_unique hr h]

/-- Every instruction of `OPCODE_MAP` has its byte, and ADDI has `ADDI_OPCODE` when it is enabled. -/
theorem Config.opcodeOf_of_recognizes (c : Config) {m : Mnemonic} (hv : c.valid = true)
    (hm : c.recognizes m = true) : ∃ op, c.opcodeOf m = some op := by
  have inMap : ∀ op, (m, op) ∈ c.opcodes.rows → ∃ op, c.opcodeOf m = some op :=
    fun op h => ⟨op, (c.opcodeOf_eq_some m op).2 (List.mem_append_left _ h)⟩
  cases m
  case ADDI =>
    have he : c.extensions.ADDI = true := hm
    have ha : c.addiOpcode.isSome = true := by
      simp only [Config.valid, Bool.and_eq_true, he] at hv
      simpa using hv.2
    obtain ⟨q, hq⟩ := Option.isSome_iff_exists.1 ha
    exact ⟨q, (c.opcodeOf_eq_some _ _).2 (List.mem_append_right _ ((c.mem_addiRow _ _).2 ⟨rfl, he, hq⟩))⟩
  all_goals exact inMap _ (by simp [OpcodeMap.rows]; rfl)

/-! ### A valid table -/

theorem Config.valid_nodup {c : Config} (hv : c.valid = true) : (c.rows.map Prod.snd).Nodup := by
  simp only [Config.valid, Bool.and_eq_true] at hv
  exact (allDistinct_iff _).1 hv.1.1.1

/-- Each byte's bits 7:6 and bit 4 are the instruction's (R57, R58). -/
theorem Config.valid_agrees {c : Config} (hv : c.valid = true) {m : Mnemonic} {op : Byte} (h : (m, op) ∈ c.rows) :
    opcodeCount op = m.operandCount ∧ opcodeSetsPc op = m.setsPc := by
  simp only [Config.valid, Bool.and_eq_true] at hv
  simpa [rowAgrees] using List.all_eq_true.1 hv.1.1.2 _ h

/-- The three bytes of R67. -/
theorem Config.valid_fixed {c : Config} (hv : c.valid = true) :
    c.opcodes.LDI = 0x82 ∧ c.opcodes.PRN = 0x47 ∧ c.opcodes.HLT = 0x01 := by
  simp only [Config.valid, Bool.and_eq_true, beq_iff_eq] at hv
  exact ⟨hv.1.2.1.1, hv.1.2.1.2, hv.1.2.2⟩

/-- The lookup finds the row of the byte, if its instruction is recognized (R84). -/
theorem Config.lookup_eq_some {c : Config} (hv : c.valid = true) (op : Byte) (m : Mnemonic) :
    c.lookup op = some m ↔ (m, op) ∈ c.rows ∧ c.recognizes m = true := by
  unfold Config.lookup
  constructor
  · intro h
    obtain ⟨r, hr, rfl⟩ := Option.map_eq_some_iff.1 h
    have hp : r.2 = op ∧ c.recognizes r.1 = true := by simpa using List.find?_some hr
    exact ⟨hp.1 ▸ List.mem_of_find?_eq_some hr, hp.2⟩
  · rintro ⟨hm, hrec⟩
    cases hf : c.rows.find? fun r => r.2 == op && c.recognizes r.1 with
    | none => exact absurd (List.find?_eq_none.1 hf _ hm) (by simp [hrec])
    | some r =>
      have hp : r.2 = op ∧ c.recognizes r.1 = true := by simpa using List.find?_some hf
      have e := List.inj_on_of_nodup_map (Config.valid_nodup hv) (List.mem_of_find?_eq_some hf) hm hp.1
      rw [Option.map_some, e]

/-- A byte with no row, or only a disabled one, is unrecognized (R70). -/
theorem Config.lookup_eq_none {c : Config} (hv : c.valid = true) (op : Byte) :
    c.lookup op = none ↔ ∀ m, (m, op) ∈ c.rows → c.recognizes m = false := by
  rw [Option.eq_none_iff_forall_ne_some]
  constructor
  · intro h m hm
    by_contra hrec
    exact h m ((Config.lookup_eq_some hv op m).2 ⟨hm, by simpa using hrec⟩)
  · intro h m hl
    obtain ⟨hm, hrec⟩ := (Config.lookup_eq_some hv op m).1 hl
    simp [h m hm] at hrec

/-! ### The decoder on fetched bytes -/

/-- What decoding the fetched bytes gives, in a valid table: the one instruction of that opcode, with those operands. -/
theorem decodeFields_eq_some {c : Config} (hv : c.valid = true) {op : Byte} {operands : List Byte}
    (hl : operands.length = opcodeCount op) (i : Instr) :
    decodeFields c op operands = some i ↔
      (i.mnemonic, op) ∈ c.rows ∧ c.recognizes i.mnemonic = true ∧ i.operands = operands := by
  unfold decodeFields
  constructor
  · intro h
    obtain ⟨m, hm, rfl⟩ := Option.map_eq_some_iff.1 h
    obtain ⟨hrow, hrec⟩ := (Config.lookup_eq_some hv op m).1 hm
    have hcount : operands.length = m.operandCount := hl.trans (Config.valid_agrees hv hrow).1
    have hname : ∀ a b, (assemble m a b).mnemonic = m := by cases m <;> intros <;> rfl
    rw [hname]
    refine ⟨hrow, hrec, ?_⟩
    match operands, hcount with
    | [], h0 => cases m <;> first | rfl | (exact absurd h0 (by decide))
    | [a], h1 => cases m <;> first | rfl | (exact absurd h1 (by simp [Mnemonic.operandCount]))
    | [a, b], h2 => cases m <;> first | rfl | (exact absurd h2 (by simp [Mnemonic.operandCount]))
    | _ :: _ :: _ :: _, h3 => exact absurd h3 (by cases m <;> simp [Mnemonic.operandCount])
  · rintro ⟨hrow, hrec, rfl⟩
    rw [(Config.lookup_eq_some hv op i.mnemonic).2 ⟨hrow, hrec⟩, Option.map_some, (Laws.Reassembly.all i).1]

end Sys2Proof
end

