-- ==== Sys2Proof/Laws/Memory.lean ====
section
/-! SUPPORT. Memory: reading after writing, and the canonical form, which every memory operation keeps and which makes
memories that read alike equal. -/

namespace Sys2Proof.Machine

@[simp] theorem Memory.read_nil (a : Nat) : Memory.read [] a = fillByte := rfl

/-! ### Reading after writing -/

theorem Memory.read_erase (m : Memory) (a b : Nat) :
    Memory.read (Memory.erase m a) b = if a = b then fillByte else Memory.read m b := by
  induction m with
  | nil => simp [Memory.erase]
  | cons c m ih =>
    rw [Memory.erase] at ih
    by_cases hc : c.1 = a <;> by_cases hab : a = b <;> by_cases hcb : c.1 = b <;>
      simp_all [Memory.erase, Memory.read]

theorem Memory.read_insert (m : Memory) (a b : Nat) (v : Byte) (h : ∀ c ∈ m, c.1 ≠ a) :
    Memory.read (Memory.insert m a v) b = if a = b then v else Memory.read m b := by
  induction m with
  | nil => simp [Memory.insert, Memory.read]
  | cons c m ih =>
    have ih := ih fun c hc => h c (List.mem_cons_of_mem _ hc)
    have hc : c.1 ≠ a := h c List.mem_cons_self
    rw [Memory.insert]
    split
    · simp [Memory.read]
    · rw [Memory.read, Memory.read, ih]
      by_cases hcb : c.1 = b
      · simp [hcb, show a ≠ b by omega]
      · simp [hcb]

theorem Memory.mem_erase_ne (m : Memory) (a : Nat) : ∀ c ∈ Memory.erase m a, c.1 ≠ a := by
  simp [Memory.erase]

/-- A write changes the one cell it names (R45). -/
theorem Memory.read_write (m : Memory) (a b : Nat) (v : Byte) :
    Memory.read (Memory.write m a v) b = if a = b then v else Memory.read m b := by
  by_cases hv : v = fillByte
  · simp [Memory.write, hv, Memory.read_erase]
  · rw [Memory.write, if_neg hv, Memory.read_insert _ _ _ _ (Memory.mem_erase_ne m a), Memory.read_erase]
    split <;> rfl

@[simp] theorem Memory.read_write_same (m : Memory) (a : Nat) (v : Byte) :
    Memory.read (Memory.write m a v) a = v := by simp [Memory.read_write]

theorem Memory.read_write_other (m : Memory) {a b : Nat} (v : Byte) (h : a ≠ b) :
    Memory.read (Memory.write m a v) b = Memory.read m b := by simp [Memory.read_write, h]

/-! ### The canonical form -/

theorem Memory.wfFrom_cons (lo : Nat) (c : Host.Cell) (m : Memory) :
    Memory.wfFrom lo (c :: m) = true ↔ lo ≤ c.1 ∧ c.1 < memSize ∧ c.2 ≠ fillByte ∧ Memory.wfFrom (c.1 + 1) m = true := by
  simp [Memory.wfFrom, and_assoc]

theorem Memory.wfFrom_mono {lo lo' : Nat} {m : Memory} (hle : lo ≤ lo') (h : Memory.wfFrom lo' m = true) :
    Memory.wfFrom lo m = true := by
  cases m with
  | nil => rfl
  | cons c m =>
    rw [Memory.wfFrom_cons] at h ⊢
    exact ⟨hle.trans h.1, h.2⟩

theorem Memory.erase_wfFrom {lo : Nat} {m : Memory} (a : Nat) (h : Memory.wfFrom lo m = true) :
    Memory.wfFrom lo (Memory.erase m a) = true := by
  induction m generalizing lo with
  | nil => rfl
  | cons c m ih =>
    rw [Memory.wfFrom_cons] at h
    obtain ⟨h₁, h₂, h₃, h₄⟩ := h
    have ih := ih h₄
    by_cases hc : c.1 = a
    · have e : Memory.erase (c :: m) a = Memory.erase m a := by simp [Memory.erase, hc]
      rw [e]
      exact Memory.wfFrom_mono (by omega) ih
    · have e : Memory.erase (c :: m) a = c :: Memory.erase m a := by simp [Memory.erase, hc]
      rw [e, Memory.wfFrom_cons]
      exact ⟨h₁, h₂, h₃, ih⟩

theorem Memory.insert_wfFrom {lo : Nat} {m : Memory} {a : Nat} {v : Byte} (hlo : lo ≤ a) (ha : a < memSize)
    (hv : v ≠ fillByte) (hm : ∀ c ∈ m, c.1 ≠ a) (h : Memory.wfFrom lo m = true) :
    Memory.wfFrom lo (Memory.insert m a v) = true := by
  induction m generalizing lo with
  | nil => rw [Memory.insert, Memory.wfFrom_cons]; exact ⟨hlo, ha, hv, rfl⟩
  | cons c m ih =>
    have hc : c.1 ≠ a := hm c List.mem_cons_self
    have hm' : ∀ c ∈ m, c.1 ≠ a := fun c hc => hm c (List.mem_cons_of_mem _ hc)
    obtain ⟨h₁, h₂, h₃, h₄⟩ := (Memory.wfFrom_cons _ _ _).1 h
    by_cases hlt : a < c.1
    · simp only [Memory.insert, hlt, ↓reduceIte]
      exact (Memory.wfFrom_cons _ _ _).2 ⟨hlo, ha, hv, (Memory.wfFrom_cons _ _ _).2 ⟨hlt, h₂, h₃, h₄⟩⟩
    · simp only [Memory.insert, hlt, ↓reduceIte]
      exact (Memory.wfFrom_cons _ _ _).2 ⟨h₁, h₂, h₃, ih (by omega) hm' h₄⟩

/-- A write inside memory keeps the canonical form. -/
theorem Memory.write_wf {m : Memory} {a : Nat} (v : Byte) (ha : a < memSize) (h : Memory.wf m = true) :
    Memory.wf (Memory.write m a v) = true := by
  unfold Memory.wf at h ⊢
  by_cases hv : v = fillByte
  · simpa [Memory.write, hv] using Memory.erase_wfFrom a h
  · simpa [Memory.write, hv] using
      Memory.insert_wfFrom (Nat.zero_le a) ha hv (Memory.mem_erase_ne m a) (Memory.erase_wfFrom a h)

/-- Placing a program keeps the canonical form. -/
theorem Memory.place_wf {m : Memory} (a : Nat) (vs : List Byte) (h : Memory.wf m = true) :
    Memory.wf (Memory.place m a vs) = true := by
  induction vs generalizing m a with
  | nil => exact h
  | cons v vs ih =>
    by_cases ha : a < memSize
    · simpa [Memory.place, ha] using ih (a + 1) (Memory.write_wf v ha h)
    · simpa [Memory.place, ha] using ih (a + 1) h

/-- The reset memory is canonical. -/
theorem Memory.reset_wf : Memory.wf State.reset.mem = true := rfl

theorem Memory.read_below {lo b : Nat} {m : Memory} (h : Memory.wfFrom lo m = true) (hb : b < lo) :
    Memory.read m b = fillByte := by
  induction m generalizing lo with
  | nil => rfl
  | cons c m ih =>
    obtain ⟨h₁, _, _, h₄⟩ := (Memory.wfFrom_cons _ _ _).1 h
    have hne : c.1 ≠ b := by omega
    simpa [Memory.read, hne] using ih h₄ (by omega)

theorem Memory.ext_from {lo : Nat} {m m' : Memory} (h : Memory.wfFrom lo m = true) (h' : Memory.wfFrom lo m' = true)
    (e : ∀ a, Memory.read m a = Memory.read m' a) : m = m' := by
  induction m generalizing lo m' with
  | nil =>
    cases m' with
    | nil => rfl
    | cons c m' =>
      have hc := ((Memory.wfFrom_cons _ _ _).1 h').2.2.1
      exact absurd (by simpa [Memory.read] using (e c.1).symm) hc
  | cons c m ih =>
    obtain ⟨h₁, h₂, h₃, h₄⟩ := (Memory.wfFrom_cons _ _ _).1 h
    cases m' with
    | nil => exact absurd (by simpa [Memory.read] using e c.1) h₃
    | cons c' m' =>
      obtain ⟨g₁, g₂, g₃, g₄⟩ := (Memory.wfFrom_cons _ _ _).1 h'
      have hk : c.1 = c'.1 := by
        rcases lt_trichotomy c.1 c'.1 with hlt | heq | hgt
        · have hr := e c.1
          have hne : c'.1 ≠ c.1 := by omega
          rw [show Memory.read (c' :: m') c.1 = Memory.read m' c.1 by simp [Memory.read, hne],
            Memory.read_below g₄ (by omega)] at hr
          exact absurd (by simpa [Memory.read] using hr) h₃
        · exact heq
        · have hr := e c'.1
          have hne : c.1 ≠ c'.1 := by omega
          rw [show Memory.read (c :: m) c'.1 = Memory.read m c'.1 by simp [Memory.read, hne],
            Memory.read_below h₄ (by omega)] at hr
          exact absurd (by simpa [Memory.read] using hr.symm) g₃
      have hv : c.2 = c'.2 := by
        have hr := e c.1
        simpa [Memory.read, hk] using hr
      have hc : c = c' := Prod.ext hk hv
      subst hc
      congr 1
      refine ih h₄ g₄ fun a => ?_
      by_cases ha : c.1 = a
      · rw [Memory.read_below h₄ (by omega), Memory.read_below g₄ (by omega)]
      · simpa [Memory.read, ha] using e a

/-- Equal memories are equal data: canonical memories that read alike are the same list. -/
theorem Memory.ext {m m' : Memory} (h : Memory.wf m = true) (h' : Memory.wf m' = true)
    (e : ∀ a, Memory.read m a = Memory.read m' a) : m = m' := Memory.ext_from h h' e

end Sys2Proof.Machine
end

