-- ==== Sys2Proof/Laws/State.lean ====
section
/-! SUPPORT. One lemma per field per update of the state, and what each update does to the registers as `getReg` and
`sp` read them. -/

namespace Sys2Proof.Machine

/-! ### `setMem` -/

@[simp] theorem State.setMem_mem (s : State) (m : Memory) : (s.setMem m).mem = m := rfl
@[simp] theorem State.setMem_x (s : State) (m : Memory) : (s.setMem m).x = s.x := rfl
@[simp] theorem State.setMem_pc (s : State) (m : Memory) : (s.setMem m).pc = s.pc := rfl
@[simp] theorem State.setMem_fl (s : State) (m : Memory) : (s.setMem m).fl = s.fl := rfl
@[simp] theorem State.setMem_status (s : State) (m : Memory) : (s.setMem m).status = s.status := rfl
@[simp] theorem State.setMem_out (s : State) (m : Memory) : (s.setMem m).out = s.out := rfl
@[simp] theorem State.setMem_diag (s : State) (m : Memory) : (s.setMem m).diag = s.diag := rfl
@[simp] theorem State.setMem_cfg (s : State) (m : Memory) : (s.setMem m).cfg = s.cfg := rfl
@[simp] theorem State.setMem_getReg (s : State) (m : Memory) (q : Fin 8) : (s.setMem m).getReg q = s.getReg q := rfl
@[simp] theorem State.setMem_sp (s : State) (m : Memory) : (s.setMem m).sp = s.sp := rfl

/-! ### `setReg` -/

@[simp] theorem State.setReg_mem (s : State) (r : Fin 8) (v : Byte) : (s.setReg r v).mem = s.mem := rfl
@[simp] theorem State.setReg_x (s : State) (r : Fin 8) (v : Byte) : (s.setReg r v).x = s.x.set r v := rfl
@[simp] theorem State.setReg_pc (s : State) (r : Fin 8) (v : Byte) : (s.setReg r v).pc = s.pc := rfl
@[simp] theorem State.setReg_fl (s : State) (r : Fin 8) (v : Byte) : (s.setReg r v).fl = s.fl := rfl
@[simp] theorem State.setReg_status (s : State) (r : Fin 8) (v : Byte) : (s.setReg r v).status = s.status := rfl
@[simp] theorem State.setReg_out (s : State) (r : Fin 8) (v : Byte) : (s.setReg r v).out = s.out := rfl
@[simp] theorem State.setReg_diag (s : State) (r : Fin 8) (v : Byte) : (s.setReg r v).diag = s.diag := rfl
@[simp] theorem State.setReg_cfg (s : State) (r : Fin 8) (v : Byte) : (s.setReg r v).cfg = s.cfg := rfl

/-! ### `setSp` -/

@[simp] theorem State.setSp_mem (s : State) (v : Byte) : (s.setSp v).mem = s.mem := rfl
@[simp] theorem State.setSp_x (s : State) (v : Byte) : (s.setSp v).x = s.x.set spIndex v := rfl
@[simp] theorem State.setSp_pc (s : State) (v : Byte) : (s.setSp v).pc = s.pc := rfl
@[simp] theorem State.setSp_fl (s : State) (v : Byte) : (s.setSp v).fl = s.fl := rfl
@[simp] theorem State.setSp_status (s : State) (v : Byte) : (s.setSp v).status = s.status := rfl
@[simp] theorem State.setSp_out (s : State) (v : Byte) : (s.setSp v).out = s.out := rfl
@[simp] theorem State.setSp_diag (s : State) (v : Byte) : (s.setSp v).diag = s.diag := rfl
@[simp] theorem State.setSp_cfg (s : State) (v : Byte) : (s.setSp v).cfg = s.cfg := rfl

/-! ### `setPc` -/

@[simp] theorem State.setPc_mem (s : State) (n : Nat) : (s.setPc n).mem = s.mem := rfl
@[simp] theorem State.setPc_x (s : State) (n : Nat) : (s.setPc n).x = s.x := rfl
@[simp] theorem State.setPc_pc (s : State) (n : Nat) : (s.setPc n).pc = n := rfl
@[simp] theorem State.setPc_fl (s : State) (n : Nat) : (s.setPc n).fl = s.fl := rfl
@[simp] theorem State.setPc_status (s : State) (n : Nat) : (s.setPc n).status = s.status := rfl
@[simp] theorem State.setPc_out (s : State) (n : Nat) : (s.setPc n).out = s.out := rfl
@[simp] theorem State.setPc_diag (s : State) (n : Nat) : (s.setPc n).diag = s.diag := rfl
@[simp] theorem State.setPc_cfg (s : State) (n : Nat) : (s.setPc n).cfg = s.cfg := rfl
@[simp] theorem State.setPc_getReg (s : State) (n : Nat) (q : Fin 8) : (s.setPc n).getReg q = s.getReg q := rfl
@[simp] theorem State.setPc_sp (s : State) (n : Nat) : (s.setPc n).sp = s.sp := rfl

/-! ### `setFl` -/

@[simp] theorem State.setFl_mem (s : State) (v : Byte) : (s.setFl v).mem = s.mem := rfl
@[simp] theorem State.setFl_x (s : State) (v : Byte) : (s.setFl v).x = s.x := rfl
@[simp] theorem State.setFl_pc (s : State) (v : Byte) : (s.setFl v).pc = s.pc := rfl
@[simp] theorem State.setFl_fl (s : State) (v : Byte) : (s.setFl v).fl = v := rfl
@[simp] theorem State.setFl_status (s : State) (v : Byte) : (s.setFl v).status = s.status := rfl
@[simp] theorem State.setFl_out (s : State) (v : Byte) : (s.setFl v).out = s.out := rfl
@[simp] theorem State.setFl_diag (s : State) (v : Byte) : (s.setFl v).diag = s.diag := rfl
@[simp] theorem State.setFl_cfg (s : State) (v : Byte) : (s.setFl v).cfg = s.cfg := rfl
@[simp] theorem State.setFl_getReg (s : State) (v : Byte) (q : Fin 8) : (s.setFl v).getReg q = s.getReg q := rfl
@[simp] theorem State.setFl_sp (s : State) (v : Byte) : (s.setFl v).sp = s.sp := rfl

/-! ### `halt` -/

@[simp] theorem State.halt_mem (s : State) : (s.halt).mem = s.mem := rfl
@[simp] theorem State.halt_x (s : State) : (s.halt).x = s.x := rfl
@[simp] theorem State.halt_pc (s : State) : (s.halt).pc = s.pc := rfl
@[simp] theorem State.halt_fl (s : State) : (s.halt).fl = s.fl := rfl
@[simp] theorem State.halt_status (s : State) : (s.halt).status = .halted := rfl
@[simp] theorem State.halt_out (s : State) : (s.halt).out = s.out := rfl
@[simp] theorem State.halt_diag (s : State) : (s.halt).diag = s.diag := rfl
@[simp] theorem State.halt_cfg (s : State) : (s.halt).cfg = s.cfg := rfl
@[simp] theorem State.halt_getReg (s : State) (q : Fin 8) : (s.halt).getReg q = s.getReg q := rfl
@[simp] theorem State.halt_sp (s : State) : (s.halt).sp = s.sp := rfl

/-! ### `emit` -/

@[simp] theorem State.emit_mem (s : State) (cs : List Byte) : (s.emit cs).mem = s.mem := rfl
@[simp] theorem State.emit_x (s : State) (cs : List Byte) : (s.emit cs).x = s.x := rfl
@[simp] theorem State.emit_pc (s : State) (cs : List Byte) : (s.emit cs).pc = s.pc := rfl
@[simp] theorem State.emit_fl (s : State) (cs : List Byte) : (s.emit cs).fl = s.fl := rfl
@[simp] theorem State.emit_status (s : State) (cs : List Byte) : (s.emit cs).status = s.status := rfl
@[simp] theorem State.emit_out (s : State) (cs : List Byte) : (s.emit cs).out = s.out ++ cs := rfl
@[simp] theorem State.emit_diag (s : State) (cs : List Byte) : (s.emit cs).diag = s.diag := rfl
@[simp] theorem State.emit_cfg (s : State) (cs : List Byte) : (s.emit cs).cfg = s.cfg := rfl
@[simp] theorem State.emit_getReg (s : State) (cs : List Byte) (q : Fin 8) : (s.emit cs).getReg q = s.getReg q := rfl
@[simp] theorem State.emit_sp (s : State) (cs : List Byte) : (s.emit cs).sp = s.sp := rfl

/-! ### `enterFault` -/

@[simp] theorem State.enterFault_mem (s : State) (c : Condition) : (s.enterFault c).mem = s.mem := rfl
@[simp] theorem State.enterFault_x (s : State) (c : Condition) : (s.enterFault c).x = s.x := rfl
@[simp] theorem State.enterFault_pc (s : State) (c : Condition) : (s.enterFault c).pc = s.pc := rfl
@[simp] theorem State.enterFault_fl (s : State) (c : Condition) : (s.enterFault c).fl = s.fl := rfl
@[simp] theorem State.enterFault_status (s : State) (c : Condition) : (s.enterFault c).status = .faulted c := rfl
@[simp] theorem State.enterFault_out (s : State) (c : Condition) : (s.enterFault c).out = s.out := rfl
@[simp] theorem State.enterFault_diag (s : State) (c : Condition) : (s.enterFault c).diag = s.diag := rfl
@[simp] theorem State.enterFault_cfg (s : State) (c : Condition) : (s.enterFault c).cfg = s.cfg := rfl
@[simp] theorem State.enterFault_getReg (s : State) (c : Condition) (q : Fin 8) : (s.enterFault c).getReg q = s.getReg q := rfl
@[simp] theorem State.enterFault_sp (s : State) (c : Condition) : (s.enterFault c).sp = s.sp := rfl

/-! ### `divisionByZero` -/

@[simp] theorem State.divisionByZero_mem (s : State) : (s.divisionByZero).mem = s.mem := rfl
@[simp] theorem State.divisionByZero_x (s : State) : (s.divisionByZero).x = s.x := rfl
@[simp] theorem State.divisionByZero_pc (s : State) : (s.divisionByZero).pc = s.pc := rfl
@[simp] theorem State.divisionByZero_fl (s : State) : (s.divisionByZero).fl = s.fl := rfl
@[simp] theorem State.divisionByZero_status (s : State) : (s.divisionByZero).status = .halted := rfl
@[simp] theorem State.divisionByZero_out (s : State) : (s.divisionByZero).out = s.out := rfl
@[simp] theorem State.divisionByZero_diag (s : State) : (s.divisionByZero).diag = s.diag ++ [.divisionByZero] := rfl
@[simp] theorem State.divisionByZero_cfg (s : State) : (s.divisionByZero).cfg = s.cfg := rfl
@[simp] theorem State.divisionByZero_getReg (s : State) (q : Fin 8) : (s.divisionByZero).getReg q = s.getReg q := rfl
@[simp] theorem State.divisionByZero_sp (s : State) : (s.divisionByZero).sp = s.sp := rfl

/-! ### Reading a register after a write -/

theorem State.getReg_setReg (s : State) (r q : Fin 8) (v : Byte) :
    (s.setReg r v).getReg q = if r = q then v else s.getReg q := by
  simp [State.getReg, State.setReg, Vector.getElem_set, Fin.ext_iff]

@[simp] theorem State.getReg_setReg_same (s : State) (r : Fin 8) (v : Byte) : (s.setReg r v).getReg r = v := by
  simp [State.getReg_setReg]

theorem State.getReg_setReg_other (s : State) {r q : Fin 8} (v : Byte) (h : r ≠ q) :
    (s.setReg r v).getReg q = s.getReg q := by
  simp [State.getReg_setReg, h]

theorem State.getReg_setSp (s : State) (q : Fin 8) (v : Byte) :
    (s.setSp v).getReg q = if spIndex = q then v else s.getReg q := State.getReg_setReg s spIndex q v

@[simp] theorem State.sp_setSp (s : State) (v : Byte) : (s.setSp v).sp = v := State.getReg_setReg_same s spIndex v

theorem State.sp_setReg (s : State) (r : Fin 8) (v : Byte) :
    (s.setReg r v).sp = if r = spIndex then v else s.sp := State.getReg_setReg s r spIndex v

/-- Writing a register its own value changes nothing. -/
theorem State.setReg_getReg (s : State) (r : Fin 8) : s.setReg r (s.getReg r) = s := by
  simp [State.setReg, State.getReg]

end Sys2Proof.Machine
end

