-- ==== Sys2Proof/Laws/Ops.lean ====
section
/-! SUPPORT. One lemma for each shared operation: what it answers, so that callers cite it and do not unfold it. -/

namespace Sys2Proof.Machine

/-! ### The sequencing of effects -/

@[simp] theorem ok_bind {α β : Type} (v : α) (f : α → Except Condition β) : ((Except.ok v : Except Condition α) >>= f) = f v :=
  rfl

@[simp] theorem error_bind {α β : Type} (c : Condition) (f : α → Except Condition β) :
    ((Except.error c : Except Condition α) >>= f) = .error c := rfl

@[simp] theorem pure_eq_ok {α : Type} (v : α) : (pure v : Except Condition α) = .ok v := rfl

@[simp] theorem throw_eq_error {α : Type} (c : Condition) : (throw c : Except Condition α) = .error c := rfl

/-! ### Memory accesses -/

theorem checkAddr_in {a : Nat} (h : a < memSize) : checkAddr a = .ok () :=
  if_neg (by omega)

theorem checkAddr_out {a : Int} (h : a < 0 ∨ (memSize : Int) ≤ a) : checkAddr a = .error (.addressOutOfRange a) := by
  rw [checkAddr, if_pos h]

theorem memRead_in {a : Nat} (s : State) (h : a < memSize) : memRead a s = .ok (Memory.read s.mem a) := by
  simp [memRead, checkAddr_in h]

theorem memRead_out {a : Int} (s : State) (h : a < 0 ∨ (memSize : Int) ≤ a) :
    memRead a s = .error (.addressOutOfRange a) := by
  simp [memRead, checkAddr_out h]

theorem memWrite_in {a : Nat} (v : Byte) (s : State) (h : a < memSize) :
    memWrite a v s = .ok (s.setMem (Memory.write s.mem a v)) := by
  simp [memWrite, checkAddr_in h]

theorem memWrite_out {a : Int} (v : Byte) (s : State) (h : a < 0 ∨ (memSize : Int) ≤ a) :
    memWrite a v s = .error (.addressOutOfRange a) := by
  simp [memWrite, checkAddr_out h]

/-- A byte is always an address in range (R121, R122). -/
theorem byte_lt_memSize (b : Byte) : b.toNat < memSize := b.isLt

@[simp] theorem memRead_byte (b : Byte) (s : State) : memRead b.toNat s = .ok (Memory.read s.mem b.toNat) :=
  memRead_in s (byte_lt_memSize b)

@[simp] theorem memWrite_byte (b v : Byte) (s : State) :
    memWrite b.toNat v s = .ok (s.setMem (Memory.write s.mem b.toNat v)) :=
  memWrite_in v s (byte_lt_memSize b)

/-- Consecutive reads inside memory give the bytes of the cells. -/
theorem memReadFrom_in (a n : Nat) (s : State) (h : a + n ≤ memSize) :
    memReadFrom a n s = .ok ((List.range' a n).map (Memory.read s.mem)) := by
  induction n generalizing a with
  | zero => rfl
  | succ n ih =>
    simp [memReadFrom, memRead_in s (show a < memSize by omega), ih (a + 1) (by omega), List.range'_succ]

/-- Consecutive reads that leave memory fail at its first address beyond the end. -/
theorem memReadFrom_out (a n : Nat) (s : State) (ha : a ≤ memSize) (h : memSize < a + n) :
    memReadFrom a n s = .error (.addressOutOfRange memSize) := by
  induction n generalizing a with
  | zero => omega
  | succ n ih =>
    rcases Nat.lt_or_ge a memSize with hlt | hge
    · simp [memReadFrom, memRead_in s hlt, ih (a + 1) (by omega) (by omega)]
    · obtain rfl : a = memSize := by omega
      simp [memReadFrom, memRead_out s (a := memSize) (.inr le_rfl)]

/-! ### Register operands -/

theorem checkReg_valid {i : Byte} {r : Fin 8} (h : i.toNat = r.val) : checkReg i = .ok r := by
  simp [checkReg, h]

theorem checkReg_invalid {i : Byte} (h : 7 < i.toNat) : checkReg i = .error (.invalidRegister i) := by
  simp [checkReg, show ¬ i.toNat < 8 by omega]

theorem regOperand_toNat (r : Fin 8) : (regOperand r).toNat = r.val := by
  simp only [regOperand, BitVec.toNat_ofNat]
  omega

@[simp] theorem checkReg_regOperand (r : Fin 8) : checkReg (regOperand r) = .ok r :=
  checkReg_valid (regOperand_toNat r)

/-- A register check answers the register its byte names, or raises with that byte. -/
theorem checkReg_cases (i : Byte) :
    (∃ r : Fin 8, i.toNat = r.val ∧ checkReg i = .ok r) ∨ (7 < i.toNat ∧ checkReg i = .error (.invalidRegister i)) := by
  rcases Nat.lt_or_ge i.toNat 8 with h | h
  · exact .inl ⟨⟨i.toNat, h⟩, rfl, checkReg_valid rfl⟩
  · exact .inr ⟨h, checkReg_invalid h⟩

@[simp] theorem checkRegs_regOperand (ra rb : Fin 8) : checkRegs (regOperand ra) (regOperand rb) = .ok (ra, rb) := by
  simp [checkRegs]

theorem checkRegs_first_invalid {a : Byte} (b : Byte) (h : 7 < a.toNat) :
    checkRegs a b = .error (.invalidRegister a) := by
  simp [checkRegs, checkReg_invalid h]

theorem checkRegs_second_invalid (ra : Fin 8) {b : Byte} (h : 7 < b.toNat) :
    checkRegs (regOperand ra) b = .error (.invalidRegister b) := by
  simp [checkRegs, checkReg_invalid h]

/-- Two register checks answer the two registers, or raise with the first byte that is out of range. -/
theorem checkRegs_cases (a b : Byte) :
    (∃ ra rb : Fin 8, a.toNat = ra.val ∧ b.toNat = rb.val ∧ checkRegs a b = .ok (ra, rb))
    ∨ (7 < a.toNat ∧ checkRegs a b = .error (.invalidRegister a))
    ∨ (a.toNat ≤ 7 ∧ 7 < b.toNat ∧ checkRegs a b = .error (.invalidRegister b)) := by
  rcases checkReg_cases a with ⟨ra, ha, ea⟩ | ⟨ha, ea⟩
  · rcases checkReg_cases b with ⟨rb, hb, eb⟩ | ⟨hb, eb⟩
    · exact .inl ⟨ra, rb, ha, hb, by simp [checkRegs, ea, eb]⟩
    · exact .inr (.inr ⟨by omega, hb, by simp [checkRegs, ea, eb]⟩)
  · exact .inr (.inl ⟨ha, by simp [checkRegs, ea]⟩)

/-! ### The stack -/

theorem decSp_zero {s : State} (h : s.sp = 0) : decSp s = .error (.addressOutOfRange (-1)) := by
  rw [decSp, if_pos h]

theorem decSp_pos {s : State} (h : s.sp ≠ 0) : decSp s = .ok (s.setSp (s.sp - 1)) := by
  rw [decSp, if_neg h]

theorem incSp_top {s : State} (h : s.sp = 0xFF) : incSp s = .error (.addressOutOfRange 0x100) := by
  rw [incSp, if_pos h]

theorem incSp_below {s : State} (h : s.sp ≠ 0xFF) : incSp s = .ok (s.setSp (s.sp + 1)) := by
  rw [incSp, if_neg h]

theorem push_zero (v : Byte) {s : State} (h : s.sp = 0) : push v s = .error (.addressOutOfRange (-1)) := by
  simp [push, decSp_zero h]

theorem push_pos (v : Byte) {s : State} (h : s.sp ≠ 0) :
    push v s = .ok ((s.setSp (s.sp - 1)).setMem (Memory.write s.mem (s.sp - 1).toNat v)) := by
  rw [push, decSp_pos h, ok_bind, State.sp_setSp, memWrite_byte, State.setSp_mem]

theorem pop_top {s : State} (h : s.sp = 0xFF) : pop s = .error (.addressOutOfRange 0x100) := by
  rw [pop, memRead_byte, ok_bind, incSp_top h, error_bind]

theorem pop_below {s : State} (h : s.sp ≠ 0xFF) :
    pop s = .ok (Memory.read s.mem s.sp.toNat, s.setSp (s.sp + 1)) := by
  rw [pop, memRead_byte, ok_bind, incSp_below h, ok_bind, pure_eq_ok]

/-- The decremented stack pointer as a number. -/
theorem toNat_sub_one {v : Byte} (h : v ≠ 0) : (v - 1).toNat = v.toNat - 1 := by
  have : v.toNat ≠ 0 := fun e => h (BitVec.eq_of_toNat_eq e)
  bv_omega

/-- The incremented stack pointer as a number. -/
theorem toNat_add_one {v : Byte} (h : v ≠ 0xFF) : (v + 1).toNat = v.toNat + 1 := by
  have : v.toNat ≠ 255 := fun e => h (BitVec.eq_of_toNat_eq e)
  bv_omega

/-! ### The end of an instruction -/

@[simp] theorem settle_ok (s t : State) : settle s (.ok t) = .next t := rfl

@[simp] theorem settle_error (s : State) (c : Condition) : settle s (.error c) = .next (s.enterFault c) := rfl

@[simp] theorem retire_ok (n : Nat) (s t : State) : retire n s (.ok t) = .next (t.setPc (t.pc + n)) := rfl

@[simp] theorem retire_error (n : Nat) (s : State) (c : Condition) : retire n s (.error c) = .next (s.enterFault c) := rfl

/-- Everything `settle` can answer. -/
theorem settle_cases (s : State) (r : Except Condition State) :
    (∃ t, r = .ok t ∧ settle s r = .next t) ∨ (∃ c, r = .error c ∧ settle s r = .next (s.enterFault c)) := by
  cases r with
  | ok t => exact .inl ⟨t, rfl, rfl⟩
  | error c => exact .inr ⟨c, rfl, rfl⟩

/-- Everything `retire` can answer. -/
theorem retire_cases (n : Nat) (s : State) (r : Except Condition State) :
    (∃ t, r = .ok t ∧ retire n s r = .next (t.setPc (t.pc + n)))
    ∨ (∃ c, r = .error c ∧ retire n s r = .next (s.enterFault c)) := by
  cases r with
  | ok t => exact .inl ⟨t, rfl, rfl⟩
  | error c => exact .inr ⟨c, rfl, rfl⟩

end Sys2Proof.Machine
end

