-- ==== Sys2Proof/Laws/Exec.lean ====
section
/-! SUPPORT. Everything an instruction can do, said once: it raises one of the conditions of `Raised`, with fault entry,
or it completes with one of the states of `Effect`. Claims about all instructions cite `exec_cases`. -/

namespace Sys2Proof.Machine

/-! ### The shapes -/

theorem updateReg_ok (f : Byte → Byte) {a : Byte} {r : Fin 8} (s : State) (h : a.toNat = r.val) :
    updateReg f a s = .ok (s.setReg r (f (s.getReg r))) := by
  simp [updateReg, checkReg_valid h]

theorem combineRegs_ok (f : Byte → Byte → Byte) {a b : Byte} {ra rb : Fin 8} (s : State)
    (h : checkRegs a b = .ok (ra, rb)) :
    combineRegs f a b s = .ok (s.setReg ra (f (s.getReg ra) (s.getReg rb))) := by
  simp [combineRegs, h]

theorem divideRegs_zero (f : Byte → Byte → Byte) {a b : Byte} {ra rb : Fin 8} (s : State)
    (h : checkRegs a b = .ok (ra, rb)) (h0 : s.getReg rb = 0) : divideRegs f a b s = .ok s.divisionByZero := by
  simp [divideRegs, h, h0]

theorem divideRegs_pos (f : Byte → Byte → Byte) {a b : Byte} {ra rb : Fin 8} (s : State)
    (h : checkRegs a b = .ok (ra, rb)) (h0 : s.getReg rb ≠ 0) :
    divideRegs f a b s = .ok (s.setReg ra (f (s.getReg ra) (s.getReg rb))) := by
  have h0' : ¬ s.getReg rb = 0#8 := h0
  simp [divideRegs, h, h0']

theorem loadReg_ok {a b : Byte} {ra rb : Fin 8} (s : State) (h : checkRegs a b = .ok (ra, rb)) :
    loadReg a b s = .ok (s.setReg ra (Memory.read s.mem (s.getReg rb).toNat)) := by
  simp [loadReg, h]

theorem storeReg_ok {a b : Byte} {ra rb : Fin 8} (s : State) (h : checkRegs a b = .ok (ra, rb)) :
    storeReg a b s = .ok (s.setMem (Memory.write s.mem (s.getReg ra).toNat (s.getReg rb))) := by
  simp [storeReg, h]

theorem jumpIf_ok (taken : Bool) {a : Byte} {r : Fin 8} (s : State) (h : a.toNat = r.val) :
    jumpIf taken a s = .ok (s.setPc (if taken then (s.getReg r).toNat else s.pc + 2)) := by
  simp [jumpIf, checkReg_valid h]

/-! ### An operand above 7 -/

/-- The first register operand that is out of range. -/
def firstInvalid (i : Instr) : Option Byte := i.regOperands.find? fun r => decide (7 < r.toNat)

/-- An instruction with a register operand out of range raises for the first such operand, whatever else holds
(R193, R199 item 5). -/
theorem exec_invalid {i : Instr} {k : Byte} (s : State) (h : firstInvalid i = some k) :
    exec i s = .next (s.enterFault (.invalidRegister k)) := by
  have one : ∀ a : Byte, firstInvalid (.push a) = some k → checkReg a = .error (.invalidRegister k) := by
    intro a ha
    rcases checkReg_cases a with ⟨r, hr, -⟩ | ⟨hr, e⟩
    · simp [firstInvalid, Instr.regOperands, show ¬ 7 < a.toNat by omega] at ha
    · simp [firstInvalid, Instr.regOperands, hr] at ha
      rw [e, ha]
  have two : ∀ a b : Byte, firstInvalid (.add a b) = some k → checkRegs a b = .error (.invalidRegister k) := by
    intro a b hab
    rcases checkRegs_cases a b with ⟨ra, rb, ha, hb, -⟩ | ⟨ha, e⟩ | ⟨ha, hb, e⟩
    · simp [firstInvalid, Instr.regOperands, show ¬ 7 < a.toNat by omega, show ¬ 7 < b.toNat by omega] at hab
    · simp [firstInvalid, Instr.regOperands, ha] at hab
      rw [e, hab]
    · simp [firstInvalid, Instr.regOperands, hb, show ¬ 7 < a.toNat by omega] at hab
      rw [e, hab]
  cases i with
  | nop => cases h
  | hlt => cases h
  | ret => cases h
  | iret => cases h
  | int a => cases h
  | push a => simp [exec, execPush, pushReg, one a h]
  | pop a => simp [exec, execPop, popReg, one a h]
  | prn a => simp [exec, execPrn, emitReg, one a h]
  | pra a => simp [exec, execPra, emitReg, one a h]
  | call a => simp [exec, execCall, callReg, one a h]
  | jmp a => simp [exec, execJmp, jumpIf, one a h]
  | jeq a => simp [exec, execJeq, jumpIf, one a h]
  | jne a => simp [exec, execJne, jumpIf, one a h]
  | jgt a => simp [exec, execJgt, jumpIf, one a h]
  | jlt a => simp [exec, execJlt, jumpIf, one a h]
  | jle a => simp [exec, execJle, jumpIf, one a h]
  | jge a => simp [exec, execJge, jumpIf, one a h]
  | inc a => simp [exec, execInc, updateReg, one a h]
  | dec a => simp [exec, execDec, updateReg, one a h]
  | not a => simp [exec, execNot, updateReg, one a h]
  | ldi a imm => simp [exec, execLdi, updateReg, one a h]
  | addi a imm => simp [exec, execAddi, updateReg, one a h]
  | ld a b => simp [exec, execLd, loadReg, two a b h]
  | st a b => simp [exec, execSt, storeReg, two a b h]
  | add a b => simp [exec, execAdd, combineRegs, two a b h]
  | sub a b => simp [exec, execSub, combineRegs, two a b h]
  | mul a b => simp [exec, execMul, combineRegs, two a b h]
  | div a b => simp [exec, execDiv, divideRegs, two a b h]
  | mod a b => simp [exec, execMod, divideRegs, two a b h]
  | cmp a b => simp [exec, execCmp, compareRegs, two a b h]
  | and a b => simp [exec, execAnd, combineRegs, two a b h]
  | or a b => simp [exec, execOr, combineRegs, two a b h]
  | xor a b => simp [exec, execXor, combineRegs, two a b h]
  | shl a b => simp [exec, execShl, combineRegs, two a b h]
  | shr a b => simp [exec, execShr, combineRegs, two a b h]

/-! ### All that an instruction can do -/

/-- The conditions an instruction can raise, and when. -/
inductive Raised (s : State) : Instr → Condition → Prop where
  | invalidRegister {i : Instr} {k : Byte} : firstInvalid i = some k → Raised s i (.invalidRegister k)
  | pushBelow (a : Byte) : s.sp = 0 → Raised s (.push a) (.addressOutOfRange (-1))
  | callBelow (a : Byte) : s.sp = 0 → Raised s (.call a) (.addressOutOfRange (-1))
  | callReturn (a : Byte) : 0xFF < s.pc + 2 → Raised s (.call a) (.addressOutOfRange ((s.pc + 2 : Nat) : Int))
  | popAbove (a : Byte) : Raised s (.pop a) (.addressOutOfRange 0x100)
  | retAbove : s.sp = 0xFF → Raised s .ret (.addressOutOfRange 0x100)
  | int (a : Byte) : s.cfg.intIretMode = .fault → Raised s (.int a) (.reservedInstruction s.cfg.opcodes.INT)
  | iret : s.cfg.intIretMode = .fault → Raised s .iret (.reservedInstruction s.cfg.opcodes.IRET)

/-- The instructions whose whole effect, apart from the pc, is to write one register named by their first operand. -/
def registerWriters : List Mnemonic :=
  [.ADD, .SUB, .MUL, .DIV, .MOD, .AND, .OR, .XOR, .SHL, .SHR, .LDI, .LD, .INC, .DEC, .NOT, .ADDI]

/-- The conditional jumps. -/
def conditionalJumps : List Mnemonic := [.JEQ, .JNE, .JGT, .JGE, .JLT, .JLE]

/-- The state in which an instruction that raises nothing completes. -/
inductive Effect (s : State) : Instr → State → Prop where
  | writesReg {i : Instr} (r : Fin 8) (v : Byte) :
      i.mnemonic ∈ registerWriters → Effect s i ((s.setReg r v).setPc (s.pc + i.size))
  | compares (a b v : Byte) : v = flL ∨ v = flG ∨ v = flE → Effect s (.cmp a b) ((s.setFl v).setPc (s.pc + 3))
  | dividesByZero {i : Instr} {a b : Byte} {r : Fin 8} : i = .div a b ∨ i = .mod a b → b.toNat = r.val →
      s.getReg r = 0 → Effect s i (s.divisionByZero.setPc (s.pc + 3))
  | stores {a b : Byte} {ra rb : Fin 8} : a.toNat = ra.val → b.toNat = rb.val →
      Effect s (.st a b) ((s.setMem (Memory.write s.mem (s.getReg ra).toNat (s.getReg rb))).setPc (s.pc + 3))
  | emits {i : Instr} {a : Byte} (cs : List Byte) : i = .prn a ∨ i = .pra a →
      Effect s i ((s.emit cs).setPc (s.pc + 2))
  | halts : Effect s .hlt (s.halt.setPc (s.pc + 1))
  | nothing : Effect s .nop (s.setPc (s.pc + 1))
  | pushes (a : Byte) (v : Byte) : s.sp ≠ 0 →
      Effect s (.push a) (((s.setSp (s.sp - 1)).setMem (Memory.write s.mem (s.sp - 1).toNat v)).setPc (s.pc + 2))
  | pops (a : Byte) {r : Fin 8} (v w : Byte) : a.toNat = r.val →
      Effect s (.pop a) (((s.setReg r v).setSp w).setPc (s.pc + 2))
  | calls {a : Byte} {r : Fin 8} (v : Byte) (t : State) : a.toNat = r.val → s.sp ≠ 0 → ¬ 0xFF < s.pc + 2 →
      t = (s.setSp (s.sp - 1)).setMem (Memory.write s.mem (s.sp - 1).toNat v) →
      Effect s (.call a) (t.setPc (t.getReg r).toNat)
  | returns : s.sp ≠ 0xFF → Effect s .ret ((s.setSp (s.sp + 1)).setPc (Memory.read s.mem s.sp.toNat).toNat)
  | jumps {i : Instr} {a : Byte} {r : Fin 8} : i.mnemonic = .JMP ∨ i.mnemonic ∈ conditionalJumps → i.operands = [a] →
      a.toNat = r.val → Effect s i (s.setPc (s.getReg r).toNat)
  | passes {i : Instr} : i.mnemonic ∈ conditionalJumps ∨ i.mnemonic = .INT ∨ i.mnemonic = .IRET →
      Effect s i (s.setPc (s.pc + i.size))

/-- What an instruction answers: fault entry for a condition of `Raised`, or a state of `Effect`. -/
abbrev Outcomes (i : Instr) (s : State) : Prop :=
  (∃ c, exec i s = .next (s.enterFault c) ∧ Raised s i c) ∨ (∃ t, exec i s = .next t ∧ Effect s i t)

theorem exec_cases (i : Instr) (s : State) : Outcomes i s := by
  cases hk : firstInvalid i with
  | some k => exact .inl ⟨_, exec_invalid s hk, .invalidRegister hk⟩
  | none =>
    have one : ∀ a : Byte, firstInvalid (.push a) = none → ∃ r : Fin 8, a.toNat = r.val := by
      intro a ha
      rcases checkReg_cases a with ⟨r, hr, -⟩ | ⟨hr, -⟩
      · exact ⟨r, hr⟩
      · simp [firstInvalid, Instr.regOperands, hr] at ha
    have two : ∀ a b : Byte, firstInvalid (.add a b) = none →
        ∃ ra rb : Fin 8, a.toNat = ra.val ∧ b.toNat = rb.val ∧ checkRegs a b = .ok (ra, rb) := by
      intro a b hab
      rcases checkRegs_cases a b with h | ⟨ha, -⟩ | ⟨-, hb, -⟩
      · exact h
      · simp [firstInvalid, Instr.regOperands, ha] at hab
      · simp [firstInvalid, Instr.regOperands] at hab
        omega
    have jump : ∀ (i : Instr) (a : Byte) (r : Fin 8) (taken : Bool), exec i s = settle s (jumpIf taken a s) →
        a.toNat = r.val → i.operands = [a] → i.size = 2 → i.mnemonic ∈ conditionalJumps → Outcomes i s := by
      intro i a r taken e ha ho hz hm
      rw [jumpIf_ok taken s ha, settle_ok] at e
      cases taken with
      | true => exact .inr ⟨_, e, .jumps (.inr hm) ho ha⟩
      | false => exact .inr ⟨_, e, hz ▸ .passes (.inl hm)⟩
    have combine : ∀ (i : Instr) (f : Byte → Byte → Byte) (a b : Byte), exec i s = retire 3 s (combineRegs f a b s) →
        firstInvalid (.add a b) = none → i.size = 3 → i.mnemonic ∈ registerWriters → Outcomes i s := by
      intro i f a b e hab hz hm
      obtain ⟨ra, rb, -, -, hc⟩ := two a b hab
      rw [combineRegs_ok f s hc, retire_ok] at e
      exact .inr ⟨_, e, hz ▸ .writesReg ra _ hm⟩
    have divide : ∀ (i : Instr) (f : Byte → Byte → Byte) (a b : Byte), exec i s = retire 3 s (divideRegs f a b s) →
        firstInvalid (.add a b) = none → i.size = 3 → (i = .div a b ∨ i = .mod a b) → i.mnemonic ∈ registerWriters →
        Outcomes i s := by
      intro i f a b e hab hz hi hm
      obtain ⟨ra, rb, -, hb, hc⟩ := two a b hab
      by_cases h0 : s.getReg rb = 0
      · rw [divideRegs_zero f s hc h0, retire_ok] at e
        exact .inr ⟨_, e, .dividesByZero hi hb h0⟩
      · rw [divideRegs_pos f s hc h0, retire_ok] at e
        exact .inr ⟨_, e, hz ▸ .writesReg ra _ hm⟩
    have update : ∀ (i : Instr) (f : Byte → Byte) (a : Byte), exec i s = retire i.size s (updateReg f a s) →
        firstInvalid (.push a) = none → i.mnemonic ∈ registerWriters → Outcomes i s := by
      intro i f a e ha hm
      obtain ⟨r, hr⟩ := one a ha
      rw [updateReg_ok f s hr, retire_ok] at e
      exact .inr ⟨_, e, .writesReg r _ hm⟩
    cases i with
    | nop => exact .inr ⟨_, rfl, .nothing⟩
    | hlt => exact .inr ⟨_, rfl, .halts⟩
    | ret =>
      by_cases h : s.sp = 0xFF
      · exact .inl ⟨_, by rw [exec, execRet, returnFromCall, pop_top h]; rfl, .retAbove h⟩
      · exact .inr ⟨_, by rw [exec, execRet, returnFromCall, pop_below h]; rfl, .returns h⟩
    | iret =>
      cases h : s.cfg.intIretMode with
      | fault => exact .inl ⟨_, by rw [exec, execIret, reserved, h]; rfl, .iret h⟩
      | nop => exact .inr ⟨_, by rw [exec, execIret, reserved, h]; rfl, .passes (.inr (.inr rfl))⟩
    | int a =>
      cases h : s.cfg.intIretMode with
      | fault => exact .inl ⟨_, by rw [exec, execInt, reserved, h]; rfl, .int a h⟩
      | nop => exact .inr ⟨_, by rw [exec, execInt, reserved, h]; rfl, .passes (.inr (.inl rfl))⟩
    | push a =>
      obtain ⟨r, hr⟩ := one a hk
      by_cases h : s.sp = 0
      · exact .inl ⟨_, by rw [exec, execPush, pushReg, checkReg_valid hr, ok_bind, decSp_zero h]; rfl, .pushBelow a h⟩
      · exact .inr ⟨_, by
          rw [exec, execPush, pushReg, checkReg_valid hr, ok_bind, decSp_pos h, ok_bind, memWrite_byte, retire_ok,
            State.sp_setSp]; rfl, .pushes a _ h⟩
    | pop a =>
      obtain ⟨r, hr⟩ := one a hk
      by_cases h : (s.setReg r (Memory.read s.mem s.sp.toNat)).sp = 0xFF
      · exact .inl ⟨_, by
          rw [exec, execPop, popReg, checkReg_valid hr, ok_bind, memRead_byte, ok_bind, incSp_top h]; rfl, .popAbove a⟩
      · exact .inr ⟨_, by
          rw [exec, execPop, popReg, checkReg_valid hr, ok_bind, memRead_byte, ok_bind, incSp_below h, retire_ok]; rfl,
          .pops a _ _ hr⟩
    | prn a =>
      obtain ⟨r, hr⟩ := one a hk
      exact .inr ⟨_, by rw [exec, execPrn, emitReg, checkReg_valid hr]; rfl, .emits _ (.inl rfl)⟩
    | pra a =>
      obtain ⟨r, hr⟩ := one a hk
      exact .inr ⟨_, by rw [exec, execPra, emitReg, checkReg_valid hr]; rfl, .emits _ (.inr rfl)⟩
    | call a =>
      obtain ⟨r, hr⟩ := one a hk
      by_cases hra : 0xFF < s.pc + 2
      · exact .inl ⟨_, by rw [exec, execCall, callReg, checkReg_valid hr, ok_bind]; simp [hra], .callReturn a hra⟩
      · by_cases h : s.sp = 0
        · exact .inl ⟨_, by rw [exec, execCall, callReg, checkReg_valid hr, ok_bind]; simp [hra, push_zero _ h],
            .callBelow a h⟩
        · exact .inr ⟨_, by rw [exec, execCall, callReg, checkReg_valid hr, ok_bind]; simp only [hra, push_pos _ h]; rfl,
            .calls _ _ hr h hra rfl⟩
    | jmp a =>
      obtain ⟨r, hr⟩ := one a hk
      exact .inr ⟨_, by rw [exec, execJmp, jumpIf_ok true s hr]; rfl, .jumps (.inl rfl) rfl hr⟩
    | jeq a => obtain ⟨r, hr⟩ := one a hk; exact jump _ a r _ rfl hr rfl rfl (by simp [Instr.mnemonic, conditionalJumps])
    | jne a => obtain ⟨r, hr⟩ := one a hk; exact jump _ a r _ rfl hr rfl rfl (by simp [Instr.mnemonic, conditionalJumps])
    | jgt a => obtain ⟨r, hr⟩ := one a hk; exact jump _ a r _ rfl hr rfl rfl (by simp [Instr.mnemonic, conditionalJumps])
    | jlt a => obtain ⟨r, hr⟩ := one a hk; exact jump _ a r _ rfl hr rfl rfl (by simp [Instr.mnemonic, conditionalJumps])
    | jle a => obtain ⟨r, hr⟩ := one a hk; exact jump _ a r _ rfl hr rfl rfl (by simp [Instr.mnemonic, conditionalJumps])
    | jge a => obtain ⟨r, hr⟩ := one a hk; exact jump _ a r _ rfl hr rfl rfl (by simp [Instr.mnemonic, conditionalJumps])
    | inc a => exact update _ _ a rfl hk (by simp [Instr.mnemonic, registerWriters])
    | dec a => exact update _ _ a rfl hk (by simp [Instr.mnemonic, registerWriters])
    | not a => exact update _ _ a rfl hk (by simp [Instr.mnemonic, registerWriters])
    | ldi a imm => exact update _ _ a rfl hk (by simp [Instr.mnemonic, registerWriters])
    | addi a imm => exact update _ _ a rfl hk (by simp [Instr.mnemonic, registerWriters])
    | ld a b =>
      obtain ⟨ra, rb, -, -, hc⟩ := two a b hk
      exact .inr ⟨_, by rw [exec, execLd, loadReg_ok s hc]; rfl,
        .writesReg (i := .ld a b) ra (Memory.read s.mem (s.getReg rb).toNat) (by simp [Instr.mnemonic, registerWriters])⟩
    | st a b =>
      obtain ⟨ra, rb, ha, hb, hc⟩ := two a b hk
      exact .inr ⟨_, by rw [exec, execSt, storeReg_ok s hc]; rfl, .stores ha hb⟩
    | cmp a b =>
      obtain ⟨ra, rb, -, -, hc⟩ := two a b hk
      refine .inr ⟨_, by rw [exec, execCmp, compareRegs, hc]; rfl,
        .compares a b (compareFlags (s.getReg ra) (s.getReg rb)) ?_⟩
      unfold compareFlags
      split
      · exact .inl rfl
      · split
        · exact .inr (.inl rfl)
        · exact .inr (.inr rfl)
    | add a b => exact combine _ _ a b rfl hk rfl (by simp [Instr.mnemonic, registerWriters])
    | sub a b => exact combine _ _ a b rfl hk rfl (by simp [Instr.mnemonic, registerWriters])
    | mul a b => exact combine _ _ a b rfl hk rfl (by simp [Instr.mnemonic, registerWriters])
    | div a b => exact divide _ _ a b rfl hk rfl (.inl rfl) (by simp [Instr.mnemonic, registerWriters])
    | mod a b => exact divide _ _ a b rfl hk rfl (.inr rfl) (by simp [Instr.mnemonic, registerWriters])
    | and a b => exact combine _ _ a b rfl hk rfl (by simp [Instr.mnemonic, registerWriters])
    | or a b => exact combine _ _ a b rfl hk rfl (by simp [Instr.mnemonic, registerWriters])
    | xor a b => exact combine _ _ a b rfl hk rfl (by simp [Instr.mnemonic, registerWriters])
    | shl a b => exact combine _ _ a b rfl hk rfl (by simp [Instr.mnemonic, registerWriters])
    | shr a b => exact combine _ _ a b rfl hk rfl (by simp [Instr.mnemonic, registerWriters])

/-- Every instruction answers a next state. -/
theorem exec_next (i : Instr) (s : State) : ∃ t, exec i s = .next t := by
  rcases exec_cases i s with ⟨c, e, -⟩ | ⟨t, e, -⟩
  · exact ⟨_, e⟩
  · exact ⟨t, e⟩

/-- The inversion lemma: a next state of an instruction is fault entry, or one of the states of `Effect`. -/
theorem exec_inv {i : Instr} {s t : State} (h : exec i s = .next t) :
    (∃ c, t = s.enterFault c ∧ Raised s i c) ∨ Effect s i t := by
  rcases exec_cases i s with ⟨c, e, hc⟩ | ⟨u, e, hu⟩
  · rw [e] at h
    injection h with h
    exact .inl ⟨c, h.symm, hc⟩
  · rw [e] at h
    injection h with h
    exact .inr (h ▸ hu)

end Sys2Proof.Machine
end

