-- ==== Sys2Proof/Laws/Results.lean ====
section
/-! SUPPORT. What an instruction of each shape leaves: the result of the shape with its frame, said once. A caller gives
the equation that says the instruction has the shape, which is `rfl`. -/

namespace Sys2Proof.Machine

/-! ### `trunc8` as a number -/

/-- `trunc8(v)` is `v mod 256` (R11). -/
theorem trunc8_int (v : Int) : ((trunc8 v).toNat : Int) = v % 256 := by
  simp only [trunc8, BitVec.toNat_ofInt]
  omega

theorem trunc8_nat (n : Nat) : (trunc8 (n : Int)).toNat = n % 256 := by
  have h := trunc8_int n
  omega

/-! ### Shapes -/

/-- Writing one register and advancing is all that such an instruction does. -/
theorem writesRegister_of_retire {i : Instr} {s : State} {r : Fin 8} {v : Byte} {n : Nat}
    (h : exec i s = retire n s (.ok (s.setReg r v))) : WritesRegister i s r v n := by
  refine ⟨_, h, State.getReg_setReg_same s r v, fun q hq => ?_, fun _ => rfl, ⟨rfl, rfl, rfl, rfl, rfl⟩, rfl⟩
  exact State.getReg_setReg_other s v fun e => hq (by simp [e])

/-- The shape of R100. -/
theorem combineRegs_writes {i : Instr} {f : Byte → Byte → Byte} {s : State} {ra rb : Fin 8}
    (h : exec i s = retire 3 s (combineRegs f (regOperand ra) (regOperand rb) s)) :
    WritesRegister i s ra (f (s.getReg ra) (s.getReg rb)) 3 :=
  writesRegister_of_retire (h.trans (by rw [combineRegs_ok f s (checkRegs_regOperand ra rb)]))

/-- The shape of R104 and R105, for a divisor other than 0. -/
theorem divideRegs_writes {i : Instr} {f : Byte → Byte → Byte} {s : State} {ra rb : Fin 8}
    (h : exec i s = retire 3 s (divideRegs f (regOperand ra) (regOperand rb) s)) (h0 : s.getReg rb ≠ 0) :
    WritesRegister i s ra (f (s.getReg ra) (s.getReg rb)) 3 :=
  writesRegister_of_retire (h.trans (by rw [divideRegs_pos f s (checkRegs_regOperand ra rb) h0]))

/-- The shape of the one-register instructions. -/
theorem updateReg_writes {i : Instr} {f : Byte → Byte} {s : State} {r : Fin 8} {n : Nat}
    (h : exec i s = retire n s (updateReg f (regOperand r) s)) : WritesRegister i s r (f (s.getReg r)) n :=
  writesRegister_of_retire (h.trans (by rw [updateReg_ok f s (regOperand_toNat r)]))

/-- The shape of the jumps. -/
theorem jumpIf_onlyMovesPc {i : Instr} {s : State} {r : Fin 8} {taken : Bool}
    (h : exec i s = settle s (jumpIf taken (regOperand r) s)) :
    OnlyMovesPc i s (if taken then (s.getReg r).toNat else s.pc + 2) := by
  rw [jumpIf_ok taken s (regOperand_toNat r), settle_ok] at h
  exact ⟨_, h, rfl, fun _ => rfl, fun _ => rfl, ⟨rfl, rfl, rfl, rfl, rfl⟩⟩

end Sys2Proof.Machine
end

