-- ==== Sys2Proof/Laws/Step.lean ====
section
/-! SUPPORT. The fetch and the step: everything each can answer, said once. -/

namespace Sys2Proof.Machine

/-! ### Fetch -/

theorem opcodeCount_eq (op : Byte) : opcodeCount op = op.toNat / 64 := by
  have h : op.toNat < 256 := op.isLt
  simp only [opcodeCount, BitVec.extractLsb'_toNat, Nat.shiftRight_eq_div_pow]
  omega

theorem opcodeCount_le (op : Byte) : opcodeCount op ≤ 3 := by
  have h : op.toNat < 256 := op.isLt
  rw [opcodeCount_eq]
  omega

/-- The operand bytes of the instruction at the pc, as memory holds them. -/
def operandBytes (s : State) : List Byte :=
  (List.range' (s.pc + 1) (opcodeCount (Memory.read s.mem s.pc))).map (Memory.read s.mem)

theorem operandBytes_length (s : State) : (operandBytes s).length = opcodeCount (Memory.read s.mem s.pc) := by
  simp [operandBytes]

/-- R81: the opcode fetch outside memory. -/
theorem fetch_pc_out {s : State} (h : memSize ≤ s.pc) : fetch s = .error (.addressOutOfRange s.pc) := by
  simp [fetch, memRead_out s (a := s.pc) (.inr (by exact_mod_cast h))]

/-- R83: the first operand outside memory, whatever the opcode. -/
theorem fetch_operand_out {s : State} (hpc : s.pc < memSize)
    (h : memSize ≤ s.pc + opcodeCount (Memory.read s.mem s.pc)) : fetch s = .error (.addressOutOfRange memSize) := by
  simp [fetch, memRead_in s hpc, memReadFrom_out (s.pc + 1) (opcodeCount (Memory.read s.mem s.pc)) s (by omega) (by omega)]

/-- R84: all bytes in memory, so the lookup decides. -/
theorem fetch_in {s : State} (h : s.pc + opcodeCount (Memory.read s.mem s.pc) < memSize) :
    fetch s =
      match decodeFields s.cfg (Memory.read s.mem s.pc) (operandBytes s) with
      | some i => .ok i
      | none => .error (.unrecognizedOpcode (Memory.read s.mem s.pc)) := by
  simp only [fetch, memRead_in s (show s.pc < memSize by omega), ok_bind,
    memReadFrom_in (s.pc + 1) (opcodeCount (Memory.read s.mem s.pc)) s (by omega)]
  rfl

/-- A fetched instruction: all its bytes lie in memory, and they are what decodes to it. -/
theorem fetch_ok_inv {s : State} {i : Instr} (h : fetch s = .ok i) :
    s.pc + opcodeCount (Memory.read s.mem s.pc) < memSize
      ∧ decodeFields s.cfg (Memory.read s.mem s.pc) (operandBytes s) = some i := by
  rcases Nat.lt_or_ge s.pc memSize with hpc | hpc
  · rcases Nat.lt_or_ge (s.pc + opcodeCount (Memory.read s.mem s.pc)) memSize with hn | hn
    · refine ⟨hn, ?_⟩
      rw [fetch_in hn] at h
      split at h
      · rename_i j hj
        injection h with h
        exact h ▸ hj
      · cases h
    · rw [fetch_operand_out hpc hn] at h
      cases h
  · rw [fetch_pc_out hpc] at h
    cases h

/-- A fetched instruction's opcode byte in a valid table, and its place in memory. -/
theorem fetch_ok_row {s : State} {i : Instr} (hv : s.cfg.valid = true) (h : fetch s = .ok i) :
    (i.mnemonic, Memory.read s.mem s.pc) ∈ s.cfg.rows ∧ s.cfg.recognizes i.mnemonic = true
      ∧ i.operands = operandBytes s ∧ s.pc + i.size ≤ memSize := by
  obtain ⟨hn, hd⟩ := fetch_ok_inv h
  obtain ⟨hrow, hrec, hops⟩ := (decodeFields_eq_some hv (operandBytes_length s) i).1 hd
  refine ⟨hrow, hrec, hops, ?_⟩
  have hc := (Config.valid_agrees hv hrow).1
  simp only [Instr.size]
  omega

/-- The bytes of a fetched instruction are the bytes memory holds from the pc on (R81, R83). -/
theorem fetch_ok_byte {s : State} {i : Instr} (hv : s.cfg.valid = true) (h : fetch s = .ok i) {k : Nat}
    (hk : k < i.size) : ∃ ws, encode s.cfg i = some ws ∧ ws[k]? = some (Memory.read s.mem (s.pc + k)) := by
  obtain ⟨hrow, -, hops, -⟩ := fetch_ok_row hv h
  refine ⟨_, by rw [encode, (s.cfg.opcodeOf_eq_some _ _).2 hrow, hops]; rfl, ?_⟩
  rw [Instr.size, ← (Config.valid_agrees hv hrow).1] at hk
  cases k with
  | zero => rfl
  | succ k =>
    rw [List.getElem?_cons_succ, operandBytes, List.getElem?_map, List.getElem?_range' (by omega)]
    simp [Nat.add_assoc, Nat.add_comm 1]

/-- A condition raised by the fetch is one of R199 items 1 to 3. -/
theorem fetch_error_inv {s : State} {c : Condition} (h : fetch s = .error c) :
    (memSize ≤ s.pc ∧ c = .addressOutOfRange s.pc)
    ∨ (s.pc < memSize ∧ memSize ≤ s.pc + opcodeCount (Memory.read s.mem s.pc) ∧ c = .addressOutOfRange memSize)
    ∨ (s.pc + opcodeCount (Memory.read s.mem s.pc) < memSize
        ∧ decodeFields s.cfg (Memory.read s.mem s.pc) (operandBytes s) = none
        ∧ c = .unrecognizedOpcode (Memory.read s.mem s.pc)) := by
  rcases Nat.lt_or_ge s.pc memSize with hpc | hpc
  · rcases Nat.lt_or_ge (s.pc + opcodeCount (Memory.read s.mem s.pc)) memSize with hn | hn
    · rw [fetch_in hn] at h
      split at h
      · cases h
      · rename_i hd
        injection h with h
        exact .inr (.inr ⟨hn, hd, h.symm⟩)
    · rw [fetch_operand_out hpc hn] at h
      injection h with h
      exact .inr (.inl ⟨hpc, hn, h.symm⟩)
  · rw [fetch_pc_out hpc] at h
    injection h with h
    exact .inl ⟨hpc, h.symm⟩

/-! ### Step -/

theorem step_of_fetch_ok {s : State} {i : Instr} (hs : s.status = .running) (hv : s.cfg.valid = true)
    (h : fetch s = .ok i) : step s = exec i s := by
  simp [step, hs, hv, h]

theorem step_of_fetch_error {s : State} {c : Condition} (hs : s.status = .running) (hv : s.cfg.valid = true)
    (h : fetch s = .error c) : step s = .next (s.enterFault c) := by
  simp [step, hs, hv, h]

/-- Everything a step can answer. -/
theorem step_cases (s : State) :
    (s.status = .halted ∧ step s = .fault .stepOfHalted)
    ∨ (∃ c, s.status = .faulted c ∧ step s = .fault (.stepOfFaulted c))
    ∨ (s.status = .running ∧ s.cfg.valid = false ∧ step s = .refused .invalidConfiguration)
    ∨ (s.status = .running ∧ s.cfg.valid = true ∧ ∃ c, fetch s = .error c ∧ step s = .next (s.enterFault c))
    ∨ (s.status = .running ∧ s.cfg.valid = true ∧ ∃ i, fetch s = .ok i ∧ step s = exec i s) := by
  cases hs : s.status with
  | halted => exact .inl ⟨rfl, by simp [step, hs]⟩
  | faulted c => exact .inr (.inl ⟨c, rfl, by simp [step, hs]⟩)
  | running =>
    cases hv : s.cfg.valid with
    | false => exact .inr (.inr (.inl ⟨rfl, rfl, by simp [step, hs, hv]⟩))
    | true =>
      cases hf : fetch s with
      | error c => exact .inr (.inr (.inr (.inl ⟨rfl, rfl, c, rfl, step_of_fetch_error hs hv hf⟩)))
      | ok i => exact .inr (.inr (.inr (.inr ⟨rfl, rfl, i, rfl, step_of_fetch_ok hs hv hf⟩)))

/-- The inversion lemma: a step to a next state starts in a running core with a valid configuration, and is fault entry
for a condition of the fetch, or what the fetched instruction does. -/
theorem step_inv {s t : State} (h : step s = .next t) :
    s.status = .running ∧ s.cfg.valid = true ∧
      ((∃ c, fetch s = .error c ∧ t = s.enterFault c) ∨ (∃ i, fetch s = .ok i ∧ exec i s = .next t)) := by
  rcases step_cases s with ⟨-, e⟩ | ⟨c, -, e⟩ | ⟨-, -, e⟩ | ⟨hs, hv, c, hf, e⟩ | ⟨hs, hv, i, hf, e⟩
  · rw [e] at h
    cases h
  · rw [e] at h
    cases h
  · rw [e] at h
    cases h
  · rw [e] at h
    injection h with h
    exact ⟨hs, hv, .inl ⟨c, hf, h.symm⟩⟩
  · exact ⟨hs, hv, .inr ⟨i, hf, e ▸ h⟩⟩

/-- What holds of a state and is kept by every step holds of every state reached from it. -/
theorem reaches_induction {P : State → Prop} (hstep : ∀ s t, P s → step s = .next t → P t) {s t : State}
    (hs : P s) (h : Reaches s t) : P t := by
  induction h with
  | start => exact hs
  | step _ e ih => exact hstep _ _ ih e

end Sys2Proof.Machine
end

