-- ==== Sys2Proof/Tests/Slice0.lean ====
section
/-! SUPPORT. Tests, each with an expected result from the spec: words written out from its encodings, its test vectors
(spec/95_test_vectors.md, by their ids), ill-formed terms that the checks refuse, and for every statement with
hypotheses a witness that meets them. -/

namespace Sys2Proof.Tests

open Sys2Proof Sys2Proof.Machine

/-! ### Builders -/

/-- All optional instructions enabled, ADDI with the opcode 0x8F that the spec's own check used (R180, D14). -/
def fullConfig : Config :=
  { defaultConfig with
    extensions := { INC := true, DEC := true, NOT := true, NOP := true, ADDI := true }
    addiOpcode := some 0x8F }

/-- The reset state under `fullConfig`. -/
def fullReset : State := { State.reset with cfg := fullConfig }

/-- The reset state in `nop` mode. -/
def nopMode : State := { State.reset with cfg := { defaultConfig with intIretMode := .nop } }

/-- "bytes @a", with `pc = a`. -/
def at_ (s : State) (a : Nat) (bytes : List Byte) : State := (s.setMem (Memory.place s.mem a bytes)).setPc a

/-- The state with some registers set. -/
def withRegs (s : State) (rs : List (Fin 8 × Byte)) : State := rs.foldl (fun s r => s.setReg r.1 r.2) s

/-- The state with one cell set. -/
def withCell (s : State) (a : Nat) (v : Byte) : State := s.setMem (Memory.write s.mem a v)

/-- A field of the state after one step. -/
def after {α : Type} (s : State) (f : State → α) : Option α :=
  match step s with
  | .next t => some (f t)
  | .fault _ => none
  | .refused _ => none

/-- `pc` and run status. -/
def ends (t : State) : Nat × Status := (t.pc, t.status)

/-! ### WellFormed smoke: an ill-formed term for each check -/

theorem test_wellFormed_first_operand :
    (Instr.push 8).wellFormed = false ∧ (Instr.ldi 8 1).wellFormed = false ∧ (Instr.add 8 1).wellFormed = false
    ∧ (Instr.addi 0xFF 0).wellFormed = false ∧ (Instr.jeq 9).wellFormed = false := by decide

theorem test_wellFormed_second_operand :
    (Instr.add 0 8).wellFormed = false ∧ (Instr.st 7 0xFF).wellFormed = false := by decide

/-- An immediate and the operand of INT are no register operands. -/
theorem test_wellFormed_accepts :
    (Instr.add 0 7).wellFormed = true ∧ (Instr.ldi 7 0xFF).wellFormed = true ∧ (Instr.int 0xFF).wellFormed = true
    ∧ Instr.ret.wellFormed = true := by decide

theorem test_validReg : validReg 7 = true ∧ validReg 8 = false ∧ validReg 0xFF = false := by decide

/-- A configuration with another opcode map. -/
def withOpcodes (o : OpcodeMap) : Config := { defaultConfig with opcodes := o }

theorem test_config_duplicate_byte : (withOpcodes { defaultOpcodes with SUB := 0xA0 }).valid = false := by decide

theorem test_config_wrong_count : (withOpcodes { defaultOpcodes with ADD := 0x60 }).valid = false := by decide

theorem test_config_wrong_setsPc :
    (withOpcodes { defaultOpcodes with JMP := 0x44 }).valid = false
    ∧ (withOpcodes { defaultOpcodes with PUSH := 0x5F }).valid = false := by decide

theorem test_config_fixed_bytes :
    (withOpcodes { defaultOpcodes with LDI := 0x8E }).valid = false
    ∧ (withOpcodes { defaultOpcodes with PRN := 0x4F }).valid = false
    ∧ (withOpcodes { defaultOpcodes with HLT := 0x0F }).valid = false := by decide

theorem test_config_addi :
    { fullConfig with addiOpcode := none }.valid = false ∧ { fullConfig with addiOpcode := some 0xA0 }.valid = false
    ∧ { fullConfig with addiOpcode := some 0x9F }.valid = false := by decide

theorem test_config_accepts :
    defaultConfig.valid = true ∧ tableConfig.valid = true ∧ fullConfig.valid = true
    ∧ (withOpcodes { defaultOpcodes with ADD := 0x8D }).valid = true := by decide

/-! ### Decoding: words written out from R65, R66 and R180 -/

theorem test_decode_format_Z :
    decode fullConfig [0b00000000] = .ok (.nop, []) ∧ decode fullConfig [0b00000001] = .ok (.hlt, [])
    ∧ decode fullConfig [0b00010001] = .ok (.ret, []) ∧ decode fullConfig [0b00010011] = .ok (.iret, []) := by decide

theorem test_decode_format_R :
    decode fullConfig [0b01000101, 2] = .ok (.push 2, []) ∧ decode fullConfig [0b01000110, 3] = .ok (.pop 3, [])
    ∧ decode fullConfig [0b01000111, 1] = .ok (.prn 1, []) ∧ decode fullConfig [0b01001000, 7] = .ok (.pra 7, [])
    ∧ decode fullConfig [0b01100101, 4] = .ok (.inc 4, []) ∧ decode fullConfig [0b01100110, 5] = .ok (.dec 5, [])
    ∧ decode fullConfig [0b01101001, 1] = .ok (.not 1, []) := by decide

theorem test_decode_control_flow :
    decode fullConfig [0b01010000, 4] = .ok (.call 4, []) ∧ decode fullConfig [0b01010010, 9] = .ok (.int 9, [])
    ∧ decode fullConfig [0b01010100, 3] = .ok (.jmp 3, []) ∧ decode fullConfig [0b01010101, 3] = .ok (.jeq 3, [])
    ∧ decode fullConfig [0b01010110, 3] = .ok (.jne 3, []) ∧ decode fullConfig [0b01010111, 3] = .ok (.jgt 3, [])
    ∧ decode fullConfig [0b01011000, 3] = .ok (.jlt 3, []) ∧ decode fullConfig [0b01011001, 3] = .ok (.jle 3, [])
    ∧ decode fullConfig [0b01011010, 3] = .ok (.jge 3, []) := by decide

theorem test_decode_format_RI :
    decode fullConfig [0b10000010, 0, 8] = .ok (.ldi 0 8, [])
    ∧ decode fullConfig [0b10001111, 0, 10] = .ok (.addi 0 10, []) := by decide

theorem test_decode_format_RR_memory :
    decode fullConfig [0b10000011, 2, 0] = .ok (.ld 2 0, [])
    ∧ decode fullConfig [0b10000100, 0, 1] = .ok (.st 0 1, []) := by decide

theorem test_decode_format_RR_arithmetic :
    decode fullConfig [0b10100000, 6, 1] = .ok (.add 6 1, []) ∧ decode fullConfig [0b10100001, 7, 1] = .ok (.sub 7 1, [])
    ∧ decode fullConfig [0b10100010, 2, 3] = .ok (.mul 2 3, []) ∧ decode fullConfig [0b10100011, 0, 1] = .ok (.div 0 1, [])
    ∧ decode fullConfig [0b10100100, 0, 1] = .ok (.mod 0 1, [])
    ∧ decode fullConfig [0b10100111, 4, 5] = .ok (.cmp 4 5, []) := by decide

theorem test_decode_format_RR_logic :
    decode fullConfig [0b10101000, 0, 1] = .ok (.and 0 1, []) ∧ decode fullConfig [0b10101010, 0, 1] = .ok (.or 0 1, [])
    ∧ decode fullConfig [0b10101011, 0, 1] = .ok (.xor 0 1, []) ∧ decode fullConfig [0b10101100, 0, 1] = .ok (.shl 0 1, [])
    ∧ decode fullConfig [0b10101101, 1, 0] = .ok (.shr 1 0, []) := by decide

theorem test_decode_rejects :
    decode fullConfig [] = .error .noOpcode ∧ decode fullConfig [0x02] = .error (.unrecognized 0x02)
    ∧ decode fullConfig [0x60, 0] = .error (.unrecognized 0x60) ∧ decode fullConfig [0x45] = .error (.truncated 0x45)
    ∧ decode fullConfig [0xFF, 1, 2] = .error (.truncated 0xFF)
    ∧ decode fullConfig [0xFF, 1, 2, 3] = .error (.unrecognized 0xFF) := by decide

theorem test_table_words :
    decodeTableWord 24 0x080082 = some (.ldi 0 8) ∧ decodeTableWord 8 0x01 = some .hlt
    ∧ decodeTableWord 16 0x0265 = some (.inc 2) ∧ decodeTableWord 8 0xA1 = some (.sub 0 0)
    ∧ decodeTableWord 8 0xC0 = none := by decide

theorem test_fetch_word :
    after (State.reset.withFetchWord 24 0x080082) (fun t => t.getReg 0) = some 8
    ∧ after (State.reset.withFetchWord 16 0x0765) (fun t => t.getReg 7) = some 0xF5
    ∧ after (State.reset.withFetchWord 8 0x00) ends = some (1, .running) := by decide

/-! ### ALU (section 3 of the vectors) -/

/-- `OP R0, R1` from `x0 = va` and `x1 = vb`. -/
def alu (op va vb : Byte) : State := at_ (withRegs State.reset [(0, va), (1, vb)]) 0 [op, 0, 1]

/-- `x0`, `x1`, `FL` and `pc`. -/
def aluEnd (t : State) : Byte × Byte × Byte × Nat := (t.getReg 0, t.getReg 1, t.fl, t.pc)

theorem test_add_wraps : after (alu 0xA0 0xFF 0x01) aluEnd = some (0x00, 0x01, 0, 3) := by decide -- A-ADD-1

theorem test_add : after (alu 0xA0 0xC8 0x64) aluEnd = some (0x2C, 0x64, 0, 3) := by decide -- A-ADD-3

theorem test_sub_wraps : after (alu 0xA1 0x03 0x05) aluEnd = some (0xFE, 0x05, 0, 3) := by decide -- A-SUB-2

theorem test_sub_sp : -- A-SP-1
    after (at_ (withRegs State.reset [(1, 4)]) 0 [0xA1, 7, 1]) State.sp = some 0xF0 := by decide

theorem test_mul_low_byte : after (alu 0xA2 0xFF 0xFF) aluEnd = some (0x01, 0xFF, 0, 3) := by decide -- A-MUL-2

theorem test_div : after (alu 0xA3 0xC8 0x07) aluEnd = some (0x1C, 0x07, 0, 3) := by decide -- A-DIV-1

theorem test_div_by_zero : -- A-DIV-4
    after (alu 0xA3 7 0) (fun t => (aluEnd t, t.status, t.diag)) = some ((7, 0, 0, 3), .halted, [.divisionByZero]) := by
  decide

theorem test_mod : after (alu 0xA4 0xC8 0x07) aluEnd = some (0x04, 0x07, 0, 3) := by decide -- A-MOD-1

theorem test_mod_by_zero : -- A-MOD-4
    after (alu 0xA4 7 0) (fun t => (aluEnd t, t.status, t.diag)) = some ((7, 0, 0, 3), .halted, [.divisionByZero]) := by
  decide

theorem test_and : after (alu 0xA8 0xCC 0xAA) aluEnd = some (0x88, 0xAA, 0, 3) := by decide -- A-AND-1

theorem test_or : after (alu 0xAA 0xCC 0xAA) aluEnd = some (0xEE, 0xAA, 0, 3) := by decide -- A-OR-1

theorem test_xor : after (alu 0xAB 0xCC 0xAA) aluEnd = some (0x66, 0xAA, 0, 3) := by decide -- A-XOR-1

theorem test_shl : after (alu 0xAC 0x81 0x01) aluEnd = some (0x02, 0x01, 0, 3) := by decide -- A-SHL-2

theorem test_shl_amount_8 : after (alu 0xAC 0x01 0x08) aluEnd = some (0x00, 0x08, 0, 3) := by decide -- A-SHL-4

theorem test_shr_logical : after (alu 0xAD 0x81 0x01) aluEnd = some (0x40, 0x01, 0, 3) := by decide -- A-SHR-2

theorem test_shr_amount_200 : after (alu 0xAD 0xFF 0xC8) aluEnd = some (0x00, 0xC8, 0, 3) := by decide -- A-SHR-5

theorem test_cmp_unsigned : after (alu 0xA7 0x01 0xFF) aluEnd = some (0x01, 0xFF, 0x04, 3) := by decide -- A-CMP-1

theorem test_cmp_replaces : -- A-CMP-5
    after ((alu 0xA7 5 5).setFl 0x04) aluEnd = some (5, 5, 0x01, 3) := by decide

theorem test_register_check_order : -- A-IR-3, A-IR-4
    after (at_ State.reset 0 [0xA0, 8, 9]) State.status = some (.faulted (.invalidRegister 8))
    ∧ after (at_ State.reset 0 [0xA3, 9, 1]) State.status = some (.faulted (.invalidRegister 9)) := by decide

/-! ### Data movement, output, halt (section 4) -/

theorem test_ldi_sp : -- V-LDI-3
    after (at_ State.reset 0 [0x82, 7, 0x10]) (fun t => (t.sp, t.pc)) = some (0x10, 3) := by decide

theorem test_ldi_immediate_255 : -- V-LDI-2
    after (at_ State.reset 0 [0x82, 0, 0xFF]) (fun t => t.getReg 0) = some 0xFF := by decide

theorem test_ld_top_address : -- V-LD-3
    after (withCell (at_ (withRegs State.reset [(1, 0xFF)]) 0 [0x83, 0, 1]) 0xFF 0x77) (fun t => t.getReg 0)
      = some 0x77 := by decide

theorem test_st : -- V-ST-1
    after (at_ (withRegs State.reset [(0, 0x80), (1, 0x2A)]) 0 [0x84, 0, 1])
      (fun t => (Memory.read t.mem 0x80, t.pc)) = some (0x2A, 3) := by decide

theorem test_st_own_operand : -- V-ST-4
    after (at_ (withRegs State.reset [(0, 1), (1, 9)]) 0 [0x84, 0, 1])
      (fun t => (Memory.read t.mem 1, t.pc)) = some (0x09, 3) := by decide

theorem test_prn_unsigned : -- V-PRN-2: "255\n"
    after (at_ (withRegs State.reset [(0, 0xFF)]) 0 [0x47, 0]) State.out = some [0x32, 0x35, 0x35, 0x0A] := by decide

theorem test_prn_zero : -- V-PRN-1: "0\n"
    after (at_ State.reset 0 [0x47, 0]) (fun t => (t.out, t.pc)) = some ([0x30, 0x0A], 2) := by decide

theorem test_pra : -- V-PRA-1, V-PRA-4
    after (at_ (withRegs State.reset [(0, 0x41)]) 0 [0x48, 0]) State.out = some [0x41]
    ∧ after (at_ (withRegs State.reset [(0, 0xE9)]) 0 [0x48, 0]) State.out = some [0xE9] := by decide

theorem test_hlt : after (at_ State.reset 5 [0x01]) ends = some (6, .halted) := by decide -- V-HLT-1

theorem test_hlt_top : after (at_ State.reset 0xFF [0x01]) ends = some (0x100, .halted) := by decide -- DC1

/-! ### Stack (section 5) -/

theorem test_push_r7 : -- S7
    after (at_ State.reset 0 [0x45, 7]) (fun t => (t.sp, Memory.read t.mem 0xF3)) = some (0xF3, 0xF3) := by decide

theorem test_push_to_0 : -- S4
    after (at_ (withRegs State.reset [(7, 1), (0, 0x11)]) 0x10 [0x45, 0])
      (fun t => (t.sp, Memory.read t.mem 0, t.pc)) = some (0, 0x11, 0x12) := by decide

theorem test_pop : -- S2
    after (withCell (at_ (withRegs State.reset [(7, 0xF3)]) 0 [0x46, 3]) 0xF3 0x2A)
      (fun t => (t.getReg 3, t.sp, Memory.read t.mem 0xF3, t.pc)) = some (0x2A, 0xF4, 0x2A, 2) := by decide

theorem test_pop_discards : -- S5
    after (withCell (at_ (withRegs State.reset [(7, 0xFF)]) 0 [0x46, 0]) 0xFF 0x33)
      (fun t => (t.getReg 0, t.sp, t.status)) = some (0, 0xFF, .faulted (.addressOutOfRange 0x100)) := by decide

/-! ### Control flow (section 6) -/

theorem test_call_r7 : -- CF4
    after (at_ State.reset 0 [0x50, 7]) (fun t => (t.sp, Memory.read t.mem 0xF3, t.pc)) = some (0xF3, 2, 0xF3) := by
  decide

theorem test_call_at_fe : -- CF12: the return-address check precedes the stack check
    after (at_ (withRegs State.reset [(7, 0)]) 0xFE [0x50, 0]) ends
      = some (0xFE, .faulted (.addressOutOfRange 0x100)) := by decide

theorem test_ret : -- CF5
    after (withCell (at_ (withRegs State.reset [(7, 0xF3)]) 0 [0x11]) 0xF3 5) (fun t => (t.pc, t.sp))
      = some (5, 0xF4) := by decide

/-- A jump at 20 with operand R3 = 12 and some flags: the `pc` after it. -/
def jumpEnd (op fl : Byte) : Option Nat :=
  after ((at_ (withRegs State.reset [(3, 12)]) 20 [op, 3]).setFl fl) State.pc

theorem test_jmp : jumpEnd 0x54 0 = some 12 := by decide

theorem test_jeq : [0, 4, 2, 1].map (jumpEnd 0x55) = [some 22, some 22, some 22, some 12] := by decide

theorem test_jne : [0, 4, 2, 1].map (jumpEnd 0x56) = [some 12, some 12, some 12, some 22] := by decide

theorem test_jgt : [0, 4, 2, 1].map (jumpEnd 0x57) = [some 22, some 22, some 12, some 22] := by decide

theorem test_jge : [0, 4, 2, 1].map (jumpEnd 0x5A) = [some 22, some 22, some 12, some 12] := by decide

theorem test_jlt : [0, 4, 2, 1].map (jumpEnd 0x58) = [some 22, some 12, some 22, some 22] := by decide

theorem test_jle : [0, 4, 2, 1].map (jumpEnd 0x59) = [some 22, some 12, some 22, some 12] := by decide

theorem test_jeq_checks_register : -- CF9
    after (at_ State.reset 0 [0x55, 9]) State.status = some (.faulted (.invalidRegister 9)) := by decide

theorem test_int_fault : -- V-INT-2
    after (at_ State.reset 10 [0x52, 9]) ends = some (10, .faulted (.reservedInstruction 0x52)) := by decide

theorem test_int_nop : after (at_ nopMode 10 [0x52, 9]) ends = some (12, .running) := by decide -- V-INT-6

theorem test_iret_fault : -- V-INT-3
    after (at_ State.reset 7 [0x13]) ends = some (7, .faulted (.reservedInstruction 0x13)) := by decide

theorem test_iret_nop : -- V-INT-7
    after (at_ nopMode 7 [0x13]) (fun t => (ends t, t.sp)) = some ((8, .running), 0xF4) := by decide

/-! ### Extensions (section 8) -/

theorem test_inc_wraps : -- X1
    after (at_ (withRegs fullReset [(0, 0xFF)]) 0 [0x65, 0]) (fun t => (t.getReg 0, t.pc)) = some (0, 2) := by decide

theorem test_inc_disabled : -- X3
    after (at_ State.reset 0 [0x65, 0]) State.status = some (.faulted (.unrecognizedOpcode 0x65)) := by decide

theorem test_dec_wraps : -- X6
    after (at_ fullReset 0 [0x66, 0]) (fun t => t.getReg 0) = some 0xFF := by decide

theorem test_not : -- X8
    after (at_ (withRegs fullReset [(1, 0x0F)]) 0 [0x69, 1]) (fun t => t.getReg 1) = some 0xF0 := by decide

theorem test_nop : after (at_ fullReset 4 [0x00]) ends = some (5, .running) := by decide -- X10

theorem test_addi : -- X11
    after (at_ (withRegs fullReset [(0, 0xFA)]) 0 [0x8F, 0, 0x0A]) (fun t => (t.getReg 0, t.pc)) = some (4, 3) := by
  decide

theorem test_addi_disabled : -- X13
    after (at_ { State.reset with cfg := { defaultConfig with addiOpcode := some 0x8F } } 0 [0x8F, 0, 0x0A]) State.status
      = some (.faulted (.unrecognizedOpcode 0x8F)) := by decide

/-! ### Dispatch, conditions, snapshot, loader (sections 2 and 9) -/

theorem test_fetch_at_100 : -- DC2
    after (State.reset.setPc 0x100) ends = some (0x100, .faulted (.addressOutOfRange 0x100)) := by decide

theorem test_third_operand : -- DC4b
    after (at_ State.reset 0xFD [0xC0, 1, 2]) State.status = some (.faulted (.addressOutOfRange 0x100)) := by decide

theorem test_unrecognized_before_register : -- DC8
    after (at_ State.reset 0 [0x61, 9]) State.status = some (.faulted (.unrecognizedOpcode 0x61)) := by decide

theorem test_reset_alone : -- R70, R223: nothing loaded, so the first opcode is 0x00
    after State.reset ends = some (0, .faulted (.unrecognizedOpcode 0x00)) := by decide

theorem test_snapshot_fe : -- SN2
    after (at_ State.reset 0xFE [0x82, 0]) State.diagnostic
      = some (some ⟨0xFE, 0, [0x82, 0x00], #v[0, 0, 0, 0, 0, 0, 0, 0xF4]⟩) := by decide

theorem test_parse : -- LOAD3
    parseProgram ["10000010  # LDI R0,8".toList, "# comment only".toList, [], "00000000".toList, "00001000".toList,
      "01000111".toList, "00000000".toList, "00000001".toList] = .ok [0x82, 0x00, 0x08, 0x47, 0x00, 0x01] := by decide

theorem test_parse_white_space : -- R218, D20: white space around the token is no part of it
    parseProgram [" \t00000001 \r".toList, "  \t".toList] = .ok [0x01] := by decide

theorem test_parse_malformed : -- LOAD4, LOAD5
    boot (some ["1000001".toList]) false = .error (.malformedProgram 1)
    ∧ boot (some ["# a".toList, "10000012".toList]) false = .error (.malformedProgram 2) := by decide

theorem test_boot_without_path : boot none false = .error .usageError := by decide -- LOAD6

/-! ### Witnesses: the hypotheses of each statement are met -/

theorem witness_DecodeOfEncode :
    fullConfig.valid = true ∧ fullConfig.recognizes (Instr.addi 9 0xFF).mnemonic = true
    ∧ defaultConfig.valid = true ∧ defaultConfig.recognizes (Instr.ldi 7 0xFF).mnemonic = true := by decide

theorem witness_EncodeOfDecode :
    fullConfig.valid = true ∧ decode fullConfig [0xA0, 0xFF, 7, 0x01] = .ok (.add 0xFF 7, [0x01]) := by decide

theorem witness_OpcodeBitsGiveOperandCountAndSize :
    fullConfig.valid = true ∧ encode fullConfig (.addi 1 2) = some [0x8F, 1, 2] ∧ encode fullConfig .nop = some [0x00] := by
  decide

theorem witness_OpcodeBit4MarksControlFlow :
    defaultConfig.valid = true ∧ encode defaultConfig .iret = some [0x13] ∧ encode defaultConfig (.prn 9) = some [0x47, 9] := by
  decide

theorem witness_LookupIsTheOpcodeMap :
    fullConfig.valid = true ∧ fullConfig.lookup 0x8F = some .ADDI ∧ defaultConfig.lookup 0x8F = none := by decide

/-- INC enabled and not enabled; ADDI not enabled, with a byte that no row holds (X13). -/
theorem witness_ExtensionsRecognizedWhenEnabled :
    let c := { defaultConfig with addiOpcode := some 0x8F }
    fullConfig.valid = true ∧ fullConfig.lookup 0x65 = some .INC ∧ c.valid = true ∧ c.lookup 0x65 = none
    ∧ c.extensions.ADDI = false ∧ c.addiOpcode = some 0x8F ∧ 0x8F ∉ c.opcodes.rows.map Prod.snd := by decide

theorem witness_ValidConfigurationMeans : defaultConfig.valid = true
    ∧ defaultConfig.opcodeOf .CALL = some 0x50 ∧ fullConfig.opcodeOf .ADDI = some 0x8F := by decide

/-- An ADD whose last byte is the last cell. -/
theorem witness_StepRunsDecodedInstruction :
    let s := at_ State.reset 0xFD [0xA0, 1, 2]
    s.status = .running ∧ s.cfg.valid = true ∧ decode s.cfg [0xA0, 1, 2] = .ok (.add 1 2, [])
    ∧ s.pc + [(1 : Byte), 2].length < 256
    ∧ ∀ k ∈ List.range 3, some (Memory.read s.mem (s.pc + k)) = [(0xA0 : Byte), 1, 2][k]? := by decide

/-- A fetch that succeeds, one at 0x100, and a step that leaves `pc` at 0x100. -/
theorem witness_OpcodeFetch :
    fetch (at_ State.reset 0xFF [0x01]) = .ok .hlt ∧ (State.reset.setPc 256).status = .running
    ∧ (State.reset.setPc 256).cfg.valid = true ∧ 256 ≤ (State.reset.setPc 256).pc
    ∧ (at_ State.reset 0xFF [0x01]).Inv ∧ after (at_ State.reset 0xFF [0x01]) State.pc = some 0x100 := by decide

/-- A fetch of three bytes up to the last cell, DC3, whose second operand is at 0x100, and DC7, an unrecognized opcode. -/
theorem witness_OperandFetch :
    fetch (at_ State.reset 0xFD [0xA0, 1, 2]) = .ok (.add 1 2) ∧ State.reset.cfg.valid = true
    ∧ [at_ State.reset 0xFE [0x82, 0], at_ State.reset 0xFF [0x40]].all (fun s =>
        decide (s.status = .running ∧ s.pc < 256 ∧ 256 ≤ s.pc + (Memory.read s.mem s.pc).toNat / 64)) = true := by decide

/-- Two memories that differ only past the operand of a PRN. -/
theorem witness_OperandFetch_same_bytes :
    (Memory.read (at_ State.reset 0 [0x47, 1]).mem 0).toNat / 64 = 1
    ∧ [0, 1].map (Memory.read (at_ State.reset 0 [0x47, 1, 9]).mem) = [0, 1].map (Memory.read (at_ State.reset 0 [0x47, 1]).mem)
    ∧ (at_ State.reset 0 [0x47, 1, 9]).mem ≠ (at_ State.reset 0 [0x47, 1]).mem := by decide

/-- DC4 at the last address where all its operands lie in memory. -/
theorem witness_UnrecognizedOpcodeRaises :
    let s := at_ State.reset 0xFC [0xC0, 1, 2, 3]
    s.status = .running ∧ s.cfg.valid = true ∧ s.pc + (Memory.read s.mem s.pc).toNat / 64 < 256
    ∧ s.cfg.lookup (Memory.read s.mem s.pc) = none := by decide

theorem witness_TerminalStatesHaveNoStep :
    State.reset.halt.status = .halted
    ∧ (State.reset.enterFault (.invalidRegister 8)).status = .faulted (.invalidRegister 8) := by decide

theorem witness_OnlyInvalidConfigurationRefused :
    let s := { State.reset with cfg := withOpcodes { defaultOpcodes with SUB := 0xA0 } }
    s.status = .running ∧ s.cfg.valid = false ∧ State.reset.status = .running ∧ State.reset.cfg.valid = true := by decide

/-- HLT at 0xFF, and a DIV by zero. -/
theorem witness_AutomaticAdvance :
    (∃ t, exec .hlt (State.reset.setPc 0xFF) = .next t ∧ ∀ c, t.status ≠ .faulted c)
    ∧ (∃ t, exec (.div 0 1) State.reset = .next t ∧ ∀ c, t.status ≠ .faulted c)
    ∧ State.reset.status = .running ∧ State.reset.cfg.valid = true
    ∧ encode State.reset.cfg .hlt = some [0x01] ∧ (0x01 : Byte) &&& 0b00010000 = 0
    ∧ encode State.reset.cfg (.div 0 1) = some [0xA3, 0, 1] ∧ (0xA3 : Byte) &&& 0b00010000 = 0 :=
  ⟨⟨_, rfl, fun _ h => by cases h⟩, ⟨_, rfl, fun _ h => by cases h⟩, by decide⟩

/-- A jump, a return, and a jump not taken. -/
theorem witness_HandlerSetPc :
    (∃ t, exec (.jmp 7) State.reset = .next t ∧ ∀ c, t.status ≠ .faulted c)
    ∧ (∃ t, exec .ret State.reset = .next t ∧ ∀ c, t.status ≠ .faulted c)
    ∧ (∃ t, exec (.jeq 7) State.reset = .next t ∧ ∀ c, t.status ≠ .faulted c)
    ∧ State.reset.status = .running ∧ State.reset.cfg.valid = true
    ∧ encode State.reset.cfg (.jmp 7) = some [0x54, 7] ∧ (0x54 : Byte) &&& 0b00010000 ≠ 0
    ∧ encode State.reset.cfg .ret = some [0x11] ∧ (0x11 : Byte) &&& 0b00010000 ≠ 0
    ∧ encode State.reset.cfg (.jeq 7) = some [0x55, 7] ∧ (0x55 : Byte) &&& 0b00010000 ≠ 0 :=
  ⟨⟨_, rfl, fun _ h => by cases h⟩, ⟨_, rfl, fun _ h => by cases h⟩, ⟨_, rfl, fun _ h => by cases h⟩, by decide⟩

/-- CALL, CALL R7, and INT and IRET in `nop` mode. -/
theorem witness_HandlerSetPc_call_and_reserved :
    (∃ t, exec (.call 0) State.reset = .next t ∧ ∀ c, t.status ≠ .faulted c)
    ∧ (∃ t, exec (.call 7) State.reset = .next t ∧ ∀ c, t.status ≠ .faulted c)
    ∧ (∃ t, exec (.int 9) nopMode = .next t ∧ ∀ c, t.status ≠ .faulted c)
    ∧ (∃ t, exec .iret nopMode = .next t ∧ ∀ c, t.status ≠ .faulted c)
    ∧ nopMode.status = .running ∧ nopMode.cfg.valid = true
    ∧ encode State.reset.cfg (.call 7) = some [0x50, 7] ∧ (0x50 : Byte) &&& 0b00010000 ≠ 0
    ∧ encode nopMode.cfg (.int 9) = some [0x52, 9] ∧ (0x52 : Byte) &&& 0b00010000 ≠ 0
    ∧ encode nopMode.cfg .iret = some [0x13] ∧ (0x13 : Byte) &&& 0b00010000 ≠ 0 :=
  ⟨⟨_, rfl, fun _ h => by cases h⟩, ⟨_, rfl, fun _ h => by cases h⟩, ⟨_, rfl, fun _ h => by cases h⟩,
    ⟨_, rfl, fun _ h => by cases h⟩, by decide⟩

/-- S5 as an instruction, and DC2 as a step. -/
theorem witness_FaultDiscardsEffects :
    (∃ t, State.reset.status = .running ∧ exec (.pop 0) (State.reset.setSp 0xFF) = .next t
      ∧ t.status = .faulted (.addressOutOfRange 0x100))
    ∧ (∃ t, step (State.reset.setPc 0x100) = .next t ∧ t.status = .faulted (.addressOutOfRange 0x100)) :=
  ⟨⟨_, rfl, rfl, rfl⟩, ⟨_, rfl, rfl⟩⟩

/-- One state for each way the status can go. -/
theorem witness_StatusTransitions :
    State.reset.status = .running
    ∧ (∃ t, exec (.ldi 0 1) State.reset = .next t ∧ t.status = .running)
    ∧ (∃ t, exec .hlt State.reset = .next t ∧ t.status = .halted)
    ∧ (∃ t, exec (.mod 0 1) State.reset = .next t ∧ t.status = .halted)
    ∧ (∃ t, exec (.push 8) State.reset = .next t ∧ t.status = .faulted (.invalidRegister 8)) :=
  ⟨rfl, ⟨_, rfl, rfl⟩, ⟨_, rfl, rfl⟩, ⟨_, rfl, rfl⟩, ⟨_, rfl, rfl⟩⟩

/-- The first operand above 7 is 8, or the second, 255; and an immediate and INT's operand are none. -/
theorem witness_InvalidRegisterRaisedExactly :
    State.reset.status = .running
    ∧ (Instr.add 8 0xFF).regOperands.find? (fun r => decide (7 < r.toNat)) = some 8
    ∧ (Instr.add 7 0xFF).regOperands.find? (fun r => decide (7 < r.toNat)) = some 0xFF
    ∧ (Instr.ldi 7 0xFF).regOperands.find? (fun r => decide (7 < r.toNat)) = none
    ∧ (Instr.int 0xFF).regOperands.find? (fun r => decide (7 < r.toNat)) = none := by decide

theorem witness_AddressOutOfRangeCases :
    (∃ t, State.reset.pc ≤ 256 ∧ step (State.reset.setPc 256) = .next t ∧ t.status = .faulted (.addressOutOfRange 0x100))
    ∧ (∃ t, step (at_ (State.reset.setSp 0) 0x10 [0x45, 0]) = .next t ∧ t.status = .faulted (.addressOutOfRange (-1))) :=
  ⟨⟨_, by decide, rfl, rfl⟩, ⟨_, rfl, rfl⟩⟩

theorem witness_UnsupportedAluOperationNeverRaised : ∃ t, step (alu 0xA0 1 2) = .next t ∧ t.getReg 0 = 3 := ⟨_, rfl, rfl⟩

theorem witness_SnapshotOfFaultedState :
    (State.reset.enterFault (.unrecognizedOpcode 0)).status = .faulted (.unrecognizedOpcode 0)
    ∧ ∀ c, State.reset.status ≠ .faulted c := ⟨rfl, fun _ h => by cases h⟩

/-- The invariant holds of a state in the middle of a run, and a step is taken from it. -/
theorem witness_StepKeepsInvariant : (alu 0xA7 1 0xFF).Inv ∧ ∃ t, step (alu 0xA7 1 0xFF) = .next t ∧ t.fl = 0x04 :=
  ⟨by decide, _, rfl, rfl⟩

theorem witness_ParametersNeverChange :
    (∃ t, exec (.ldi 0 1) fullReset = .next t) ∧ ∃ t, step (at_ nopMode 0 [0x13]) = .next t := ⟨⟨_, rfl⟩, ⟨_, rfl⟩⟩

theorem witness_OnlyCompareWritesFlags :
    (∃ t, exec (.add 0 1) State.reset = .next t ∧ (∀ a b, Instr.add 0 1 ≠ .cmp a b)
      ∧ (Instr.add 0 1).mnemonic ∉ [Mnemonic.CMP, .JEQ, .JNE, .JGT, .JGE, .JLT, .JLE])
    ∧ (∃ t, exec (.cmp 0 7) State.reset = .next t ∧ ∀ c, t.status ≠ .faulted c) :=
  ⟨⟨_, rfl, nofun, by decide⟩, ⟨_, rfl, fun _ h => by cases h⟩⟩

theorem witness_OutputOnlyGrows :
    (∃ t, exec (.st 0 1) State.reset = .next t ∧ ∀ a, Instr.st 0 1 ≠ .prn a ∧ Instr.st 0 1 ≠ .pra a)
    ∧ ∃ t, Reaches (at_ State.reset 0 [0x47, 0]) t ∧ t.out = [0x30, 0x0A] :=
  ⟨⟨_, rfl, fun _ => ⟨nofun, nofun⟩⟩, ⟨_, .step .start rfl, rfl⟩⟩

theorem witness_MemoryWrittenOnlyByStores :
    (∃ t, exec (.pop 0) State.reset = .next t) ∧ (∀ a b, Instr.pop 0 ≠ .st a b)
    ∧ (∀ a, Instr.pop 0 ≠ .push a ∧ Instr.pop 0 ≠ .call a)
    ∧ (∃ t, exec (.st 7 0) State.reset = .next t) ∧ (7 : Byte).toNat = (7 : Fin 8).val
    ∧ (∃ t, exec (.call 0) State.reset = .next t) :=
  ⟨⟨_, rfl⟩, nofun, fun _ => ⟨nofun, nofun⟩, ⟨_, rfl⟩, rfl, ⟨_, rfl⟩⟩

/-- The addresses −1 and 256 are out of range, 0 and 255 in range, and PUSH with `SP` = 0 records −1. -/
theorem witness_MemoryInterface :
    ((-1 : Int) < 0 ∧ 256 ≤ (256 : Int)) ∧ ((0 : Nat) < 256 ∧ (255 : Nat) < 256)
    ∧ ∃ t, exec (.push 0) (State.reset.setSp 0) = .next t ∧ t.status = .faulted (.addressOutOfRange (-1)) :=
  ⟨by decide, by decide, _, rfl, rfl⟩

/-- ST into the opcode of the next instruction (V-ST-3: the PRN becomes HLT) and into its operand byte. -/
theorem witness_StoreSeenByNextFetch_st :
    let s := at_ (withRegs State.reset [(0, 3), (1, 1)]) 0 [0x84, 0, 1, 0x47, 0, 1]
    let o := at_ (withRegs State.reset [(0, 4), (1, 1)]) 0 [0x84, 0, 1, 0x47, 0, 1]
    s.status = .running ∧ s.cfg.valid = true ∧ fetch s = .ok (.st (regOperand 0) (regOperand 1))
    ∧ after s fetch = some (.ok .hlt) ∧ fetch o = .ok (.st (regOperand 0) (regOperand 1))
    ∧ after o fetch = some (.ok (.prn 1)) := by decide

/-- PUSH into the opcode of the next instruction, and PUSH R7 into its operand byte. -/
theorem witness_StoreSeenByNextFetch_push :
    let s := at_ (withRegs State.reset [(0, 1), (7, 3)]) 0 [0x45, 0, 0x47, 0]
    let o := at_ (withRegs State.reset [(7, 4)]) 0 [0x45, 7, 0x47, 0]
    s.sp ≠ 0 ∧ fetch s = .ok (.push (regOperand 0)) ∧ after s fetch = some (.ok .hlt)
    ∧ o.sp ≠ 0 ∧ fetch o = .ok (.push (regOperand 7)) ∧ after o fetch = some (.ok (.prn 3)) := by decide

/-- CALL, whose return address is stored into the operand byte of the PRN it calls. -/
theorem witness_StoreSeenByNextFetch_call :
    let s := withCell (at_ (withRegs State.reset [(0, 0x10), (7, 0x12)]) 0 [0x50, 0]) 0x10 0x47
    s.sp ≠ 0 ∧ s.pc + 2 < 256 ∧ fetch s = .ok (.call (regOperand 0)) ∧ after s fetch = some (.ok (.prn 2)) := by decide

/-- Operand bytes 8 and 255, and a divisor of 1. -/
theorem witness_AluCommonBehaviour :
    7 < (8 : Byte).toNat ∧ 7 < (255 : Byte).toNat ∧ (alu 0xA3 5 1).getReg 1 ≠ 0 := by decide

theorem witness_DivModResults : (alu 0xA3 0xFF 0x10).getReg 1 ≠ 0 := by decide

theorem witness_DivisionByZeroHalts : (alu 0xA3 7 0).getReg 1 = 0 := by decide

theorem witness_ShiftResults : (8 : Nat) ≤ ((alu 0xAC 1 8).getReg 1).toNat ∧ ((alu 0xAC 1 7).getReg 1).toNat ≤ 7 := by decide

theorem witness_CompareSetsFlags :
    ((alu 0xA7 1 0xFF).getReg 0).toNat < ((alu 0xA7 1 0xFF).getReg 1).toNat
    ∧ ((alu 0xA7 0xFF 0).getReg 0).toNat > ((alu 0xA7 0xFF 0).getReg 1).toNat
    ∧ ((alu 0xA7 5 5).getReg 0).toNat = ((alu 0xA7 5 5).getReg 1).toNat
    ∧ 7 < (8 : Byte).toNat := by decide

theorem witness_LoadImmediate : fullConfig.valid = true ∧ 7 < (8 : Byte).toNat := by decide

theorem witness_HaltStopsPastItself : fullConfig.valid = true ∧ encode fullConfig .hlt = some [0x01] := by decide

/-- The lowest stack pointer from which a push is possible. -/
theorem witness_PushStores : (State.reset.setSp 1).sp ≠ 0 := by decide

/-- The highest stack pointer from which a pop is possible, and the highest byte POP R7 takes. -/
theorem witness_PopLoads :
    (0 : Fin 8) ≠ 7 ∧ (State.reset.setSp 0xFE).sp ≠ 0xFF
    ∧ Memory.read (withCell State.reset 0xF4 0xFE).mem (withCell State.reset 0xF4 0xFE).sp.toNat ≠ 0xFF := by decide

theorem witness_StackBoundsRaise :
    (State.reset.setSp 0).sp = 0 ∧ ((State.reset.setSp 0).setPc 253).pc + 2 < 256
    ∧ (6 : Fin 8) ≠ 7 ∧ (State.reset.setSp 0xFF).sp = 0xFF
    ∧ Memory.read (withCell State.reset 0xF4 0xFF).mem (withCell State.reset 0xF4 0xFF).sp.toNat = 0xFF := by decide

/-- A pair of other registers, the pair R7 R7, and a push of R7 popped into another register. -/
theorem witness_PushPopRestores :
    (State.reset.setSp 1).sp ≠ 0 ∧ ((3 : Fin 8) ≠ 7 ∨ (2 : Fin 8) = 7) ∧ ((7 : Fin 8) ≠ 7 ∨ (7 : Fin 8) = 7)
    ∧ ((0 : Fin 8) ≠ 7 ∨ (7 : Fin 8) = 7) := by decide

/-- A CALL whose return address is 0xFF, and one whose return address is 0x100. -/
theorem witness_CallPushesReturnAddress :
    (State.reset.setSp 1).sp ≠ 0 ∧ (State.reset.setPc 0xFD).pc + 2 < 256 ∧ 256 ≤ (State.reset.setPc 0xFE).pc + 2 := by decide

theorem witness_ReturnPopsPc : (State.reset.setSp 0xFE).sp ≠ 0xFF := by decide

/-- A call, and the state right after it as the state of the return. -/
theorem witness_CallReturnConvention :
    State.reset.sp ≠ 0 ∧ State.reset.pc + 2 < 256 ∧ (0 : Fin 8) ≠ 7
    ∧ ∃ t u, exec (.call 0) State.reset = .next t ∧ exec (.ldi 1 5) t = .next u
      ∧ u.sp = t.sp ∧ Memory.read u.mem u.sp.toNat = Memory.read t.mem t.sp.toNat :=
  ⟨by decide, by decide, by decide, _, _, rfl, rfl, rfl, rfl⟩

/-- The flags after reset, after each outcome of a compare, and with all three set, which no run reaches. -/
theorem witness_ConditionalJumps :
    [(0x00 : Byte), 0x04, 0x02, 0x01, 0xFF].map (fun v =>
      ((State.reset.setFl v).fl.getLsbD 2, (State.reset.setFl v).fl.getLsbD 1, (State.reset.setFl v).fl.getLsbD 0))
      = [(false, false, false), (true, false, false), (false, true, false), (false, false, true), (true, true, true)] := by
  decide

theorem witness_ReservedInstructions :
    nopMode.cfg.intIretMode = .nop ∧ State.reset.cfg.intIretMode = .fault
    ∧ State.reset.cfg.opcodeOf .INT = some 0x52 ∧ State.reset.cfg.opcodeOf .IRET = some 0x13 := by decide

theorem witness_LoadPlacesImage :
    (List.replicate 256 (1 : Byte)).length ≤ 256 ∧ 256 < (List.replicate 257 (1 : Byte)).length :=
  ⟨List.length_replicate.le, by rw [List.length_replicate]; omega⟩

/-- LOAD4 and LOAD5, after a line that is well formed. -/
theorem witness_MalformedLineIsFatal :
    parseProgram ["00000001".toList] = .ok [0x01]
    ∧ stripLine "1000001".toList ≠ [] ∧ (stripLine "1000001".toList).length ≠ 8
    ∧ stripLine "10000012".toList ≠ [] ∧ '2' ∈ stripLine "10000012".toList ∧ ¬ ('2' = '0' ∨ '2' = '1') := by decide

/-- A program of one HLT loads without the stop request. -/
theorem witness_StopRequestBeforeRun :
    boot (some ["00000001".toList]) false = load [0x01] State.reset
    ∧ load [0x01] State.reset = .ok { State.reset with mem := [(0, 0x01)] } := ⟨rfl, rfl⟩

end Sys2Proof.Tests
end

section
/-! The flags register (R29, R30): what each operation of the model does with `FL`, and O29. -/

namespace Sys2Proof.Machine

/-! ### Which instructions write `FL` -/

/-- Apart from a completed CMP, no effect touches `FL`. -/
theorem Effect.fl_eq {s t : State} {i : Instr} (h : Effect s i t) (hi : ∀ a b, i ≠ .cmp a b) : t.fl = s.fl := by
  cases h with
  | compares a b _ _ => exact absurd rfl (hi a b)
  | calls _ _ _ _ _ ht => rw [State.setPc_fl, ht, State.setMem_fl, State.setSp_fl]
  | writesReg | dividesByZero | stores | emits | halts | nothing | pushes | pops | returns | jumps | passes => rfl

theorem exec_fl_eq {s t : State} {i : Instr} (h : exec i s = .next t) (hi : ∀ a b, i ≠ .cmp a b) : t.fl = s.fl := by
  rcases exec_inv h with ⟨c, rfl, -⟩ | ht
  · exact State.enterFault_fl s c
  · exact ht.fl_eq hi

theorem compareFlags_cases (va vb : Byte) :
    compareFlags va vb = flL ∨ compareFlags va vb = flG ∨ compareFlags va vb = flE := by
  unfold compareFlags
  split
  · exact .inl rfl
  · split
    · exact .inr (.inl rfl)
    · exact .inr (.inr rfl)

/-- A CMP that does not raise leaves L, G or E alone (R111). -/
theorem exec_cmp_fl {s t : State} {a b : Byte} (h : exec (.cmp a b) s = .next t) (ht : ∀ c, t.status ≠ .faulted c) :
    t.fl = flL ∨ t.fl = flG ∨ t.fl = flE := by
  have h : retire 3 s (compareRegs a b s) = .next t := h
  unfold compareRegs at h
  cases hc : checkRegs a b with
  | error c =>
    rw [hc] at h
    cases h
    exact absurd rfl (ht c)
  | ok p =>
    rw [hc] at h
    cases h
    exact compareFlags_cases _ _

/-! ### Effects that ignore `FL` -/

/-- The effect neither reads nor writes `FL`: on a state with another `FL` it answers the same condition, or the same
state with that other `FL`. -/
def IgnoresFl (effect : State → Except Condition State) : Prop :=
  ∀ (s : State) (v : Byte), effect (s.setFl v) = (effect s).map (State.setFl · v)

theorem ok_ignoresFl : IgnoresFl .ok := fun _ _ => rfl

theorem halt_ignoresFl : IgnoresFl fun s => .ok s.halt := fun _ _ => rfl

theorem memWrite_ignoresFl (a : Int) (w : Byte) : IgnoresFl (memWrite a w) := by
  intro s v
  unfold memWrite
  cases checkAddr a <;> rfl

theorem decSp_ignoresFl : IgnoresFl decSp := by
  intro s v
  unfold decSp
  rw [State.setFl_sp]
  split <;> rfl

theorem incSp_ignoresFl : IgnoresFl incSp := by
  intro s v
  unfold incSp
  rw [State.setFl_sp]
  split <;> rfl

theorem push_ignoresFl (w : Byte) : IgnoresFl (push w) := by
  intro s v
  unfold push
  rw [decSp_ignoresFl]
  cases decSp s with
  | error c => rfl
  | ok u => exact memWrite_ignoresFl u.sp.toNat w u v

theorem updateReg_ignoresFl (f : Byte → Byte) (a : Byte) : IgnoresFl (updateReg f a) := by
  intro s v
  unfold updateReg
  cases checkReg a <;> rfl

theorem combineRegs_ignoresFl (f : Byte → Byte → Byte) (a b : Byte) : IgnoresFl (combineRegs f a b) := by
  intro s v
  unfold combineRegs
  cases checkRegs a b <;> rfl

theorem divideRegs_ignoresFl (f : Byte → Byte → Byte) (a b : Byte) : IgnoresFl (divideRegs f a b) := by
  intro s v
  cases h : checkRegs a b with
  | error c => simp only [divideRegs, h, error_bind, Except.map]
  | ok p =>
    by_cases h0 : s.getReg p.2 = 0
    · rw [divideRegs_zero f s h h0, divideRegs_zero f (s.setFl v) h h0]
      rfl
    · rw [divideRegs_pos f s h h0, divideRegs_pos f (s.setFl v) h h0]
      rfl

theorem loadReg_ignoresFl (a b : Byte) : IgnoresFl (loadReg a b) := by
  intro s v
  unfold loadReg
  cases checkRegs a b with
  | error c => rfl
  | ok p =>
    simp only [ok_bind, memRead_byte]
    rfl

theorem storeReg_ignoresFl (a b : Byte) : IgnoresFl (storeReg a b) := by
  intro s v
  unfold storeReg
  cases checkRegs a b with
  | error c => rfl
  | ok p => exact memWrite_ignoresFl (s.getReg p.1).toNat (s.getReg p.2) s v

theorem emitReg_ignoresFl (f : Byte → List Byte) (a : Byte) : IgnoresFl (emitReg f a) := by
  intro s v
  unfold emitReg
  cases checkReg a <;> rfl

theorem pushReg_ignoresFl (a : Byte) : IgnoresFl (pushReg a) := by
  intro s v
  unfold pushReg
  cases checkReg a with
  | error c => rfl
  | ok r =>
    rw [ok_bind, ok_bind, decSp_ignoresFl]
    cases decSp s with
    | error c => rfl
    | ok u => exact memWrite_ignoresFl u.sp.toNat (u.getReg r) u v

theorem popReg_ignoresFl (a : Byte) : IgnoresFl (popReg a) := by
  intro s v
  unfold popReg
  cases checkReg a with
  | error c => rfl
  | ok r =>
    simp only [ok_bind, memRead_byte]
    exact incSp_ignoresFl (s.setReg r (Memory.read s.mem s.sp.toNat)) v

theorem callReg_ignoresFl (a : Byte) : IgnoresFl (callReg a) := by
  intro s v
  unfold callReg
  cases checkReg a with
  | error c => rfl
  | ok r =>
    by_cases hret : 0xFF < s.pc + 2
    · simp [hret, Except.map]
    · simp only [ok_bind, State.setFl_pc, hret, push_ignoresFl _ s v]
      cases push (BitVec.ofNat 8 (s.pc + 2)) s <;> rfl

theorem returnFromCall_ignoresFl : IgnoresFl returnFromCall := by
  intro s v
  by_cases h : s.sp = 0xFF
  · simp only [returnFromCall, pop_top (s := s.setFl v) h, pop_top h, error_bind, Except.map]
  · simp only [returnFromCall, pop_below (s := s.setFl v) h, pop_below h, ok_bind]
    rfl

/-- The jump shape itself ignores `FL`: what reads it is the condition a conditional jump passes as `taken`. -/
theorem jumpIf_ignoresFl (taken : Bool) (a : Byte) : IgnoresFl (jumpIf taken a) := by
  intro s v
  unfold jumpIf
  cases checkReg a <;> rfl

theorem reserved_ignoresFl (op : State → Byte) (n : Nat) (hop : ∀ s v, op (s.setFl v) = op s) :
    IgnoresFl fun s => reserved (op s) n s := by
  intro s v
  simp only [hop]
  unfold reserved
  rw [State.setFl_cfg]
  cases s.cfg.intIretMode <;> rfl

/-! ### Which instructions read `FL` -/

theorem retire_setFl {n : Nat} {s t : State} {r : Except Condition State} (h : retire n s r = .next t) (v : Byte) :
    retire n (s.setFl v) (r.map (State.setFl · v)) = .next (t.setFl v) := by
  cases r <;> cases h <;> rfl

theorem settle_setFl {s t : State} {r : Except Condition State} (h : settle s r = .next t) (v : Byte) :
    settle (s.setFl v) (r.map (State.setFl · v)) = .next (t.setFl v) := by
  cases r <;> cases h <;> rfl

/-- An instruction that advances automatically ignores `FL` when its effect does. -/
theorem IgnoresFl.exec_retire {effect : State → Except Condition State} (he : IgnoresFl effect) {i : Instr} {n : Nat}
    (hi : ∀ s, exec i s = retire n s (effect s)) {s t : State} (h : exec i s = .next t) (v : Byte) :
    exec i (s.setFl v) = .next (t.setFl v) := by
  rw [hi] at h ⊢
  rw [he]
  exact retire_setFl h v

/-- An instruction that sets the pc itself ignores `FL` when its effect does. -/
theorem IgnoresFl.exec_settle {effect : State → Except Condition State} (he : IgnoresFl effect) {i : Instr}
    (hi : ∀ s, exec i s = settle s (effect s)) {s t : State} (h : exec i s = .next t) (v : Byte) :
    exec i (s.setFl v) = .next (t.setFl v) := by
  rw [hi] at h ⊢
  rw [he]
  exact settle_setFl h v

/-- Every instruction but CMP and the conditional jumps has an effect that ignores `FL`. -/
theorem exec_setFl {i : Instr} {s t : State} (h : exec i s = .next t) (v : Byte)
    (hi : i.mnemonic ∉ [Mnemonic.CMP, .JEQ, .JNE, .JGT, .JGE, .JLT, .JLE]) :
    exec i (s.setFl v) = .next (t.setFl v) := by
  cases i with
  | cmp | jeq | jne | jgt | jge | jlt | jle => simp [Instr.mnemonic] at hi
  | nop => exact ok_ignoresFl.exec_retire (fun _ => rfl) h v
  | hlt => exact halt_ignoresFl.exec_retire (fun _ => rfl) h v
  | ret => exact returnFromCall_ignoresFl.exec_settle (fun _ => rfl) h v
  | iret => exact (reserved_ignoresFl (·.cfg.opcodes.IRET) 1 fun _ _ => rfl).exec_settle (fun _ => rfl) h v
  | int a => exact (reserved_ignoresFl (·.cfg.opcodes.INT) 2 fun _ _ => rfl).exec_settle (fun _ => rfl) h v
  | push a => exact (pushReg_ignoresFl a).exec_retire (fun _ => rfl) h v
  | pop a => exact (popReg_ignoresFl a).exec_retire (fun _ => rfl) h v
  | prn a => exact (emitReg_ignoresFl _ a).exec_retire (fun _ => rfl) h v
  | pra a => exact (emitReg_ignoresFl _ a).exec_retire (fun _ => rfl) h v
  | call a => exact (callReg_ignoresFl a).exec_settle (fun _ => rfl) h v
  | jmp a => exact (jumpIf_ignoresFl true a).exec_settle (fun _ => rfl) h v
  | inc a => exact (updateReg_ignoresFl _ a).exec_retire (fun _ => rfl) h v
  | dec a => exact (updateReg_ignoresFl _ a).exec_retire (fun _ => rfl) h v
  | not a => exact (updateReg_ignoresFl _ a).exec_retire (fun _ => rfl) h v
  | ldi a imm => exact (updateReg_ignoresFl _ a).exec_retire (fun _ => rfl) h v
  | addi a imm => exact (updateReg_ignoresFl _ a).exec_retire (fun _ => rfl) h v
  | ld a b => exact (loadReg_ignoresFl a b).exec_retire (fun _ => rfl) h v
  | st a b => exact (storeReg_ignoresFl a b).exec_retire (fun _ => rfl) h v
  | div a b => exact (divideRegs_ignoresFl _ a b).exec_retire (fun _ => rfl) h v
  | mod a b => exact (divideRegs_ignoresFl _ a b).exec_retire (fun _ => rfl) h v
  | add a b => exact (combineRegs_ignoresFl _ a b).exec_retire (fun _ => rfl) h v
  | sub a b => exact (combineRegs_ignoresFl _ a b).exec_retire (fun _ => rfl) h v
  | mul a b => exact (combineRegs_ignoresFl _ a b).exec_retire (fun _ => rfl) h v
  | and a b => exact (combineRegs_ignoresFl _ a b).exec_retire (fun _ => rfl) h v
  | or a b => exact (combineRegs_ignoresFl _ a b).exec_retire (fun _ => rfl) h v
  | xor a b => exact (combineRegs_ignoresFl _ a b).exec_retire (fun _ => rfl) h v
  | shl a b => exact (combineRegs_ignoresFl _ a b).exec_retire (fun _ => rfl) h v
  | shr a b => exact (combineRegs_ignoresFl _ a b).exec_retire (fun _ => rfl) h v

/-- Settles O29: the effects of `exec_inv` leave `FL` alone but for CMP's, and every other instruction's effect commutes
with setting `FL`. -/
theorem onlyCompareWritesFlags : Obligations.OnlyCompareWritesFlags :=
  ⟨fun _ _ _ h hi => exec_fl_eq h hi, fun _ _ _ _ h ht => exec_cmp_fl h ht, rfl, fun _ _ _ v h hi => exec_setFl h v hi⟩

end Sys2Proof.Machine
end


section
/-! The memory interface (R40): what an access in range changes, which conditions an instruction ends faulted with, and
O32. -/

namespace Sys2Proof.Machine

/-! ### A write in range -/

/-- Setting one cell of memory is all such a write does (R45). -/
theorem State.setMem_write_frame (s : State) (a : Nat) (v : Byte) :
    MemoryKeptBut a s (s.setMem (Memory.write s.mem a v)) ∧ RegistersKept s (s.setMem (Memory.write s.mem a v))
      ∧ OthersKept s (s.setMem (Memory.write s.mem a v)) :=
  ⟨fun _ hb => Memory.read_write_other s.mem v hb.symm, fun _ => rfl, rfl, rfl, rfl, rfl, rfl⟩

/-! ### Which conditions an instruction ends faulted with -/

/-- An instruction that raises nothing keeps the run status or halts. -/
theorem Effect.status_cases {s t : State} {i : Instr} (h : Effect s i t) :
    t.status = s.status ∨ t.status = .halted := by
  cases h with
  | halts | dividesByZero => exact .inr rfl
  | calls _ _ _ _ _ ht => exact .inl (by rw [State.setPc_status, ht, State.setMem_status, State.setSp_status])
  | writesReg | compares | stores | emits | nothing | pushes | pops | returns | jumps | passes => exact .inl rfl

/-- A running core that an instruction leaves `Faulted` had the condition raised by that instruction. -/
theorem exec_faulted_inv {s t : State} {i : Instr} {c : Condition} (hs : s.status = .running)
    (h : exec i s = .next t) (ht : t.status = .faulted c) : Raised s i c := by
  rcases exec_inv h with ⟨d, rfl, hd⟩ | he
  · cases ht
    exact hd
  · rcases he.status_cases with e | e
    · rw [ht, hs] at e
      cases e
    · rw [ht] at e
      cases e

/-- An address below 0 comes only from a push with `SP` = 0: the return address of CALL and the 0x100 of POP and RET
are not negative (R136). -/
theorem Raised.sp_eq_zero_of_neg {s : State} {i : Instr} {a : Int} (h : Raised s i (.addressOutOfRange a))
    (ha : a < 0) : s.sp = 0 ∧ ∃ r, i = .push r ∨ i = .call r := by
  cases h with
  | pushBelow r hsp => exact ⟨hsp, r, .inl rfl⟩
  | callBelow r hsp => exact ⟨hsp, r, .inr rfl⟩
  | callReturn => omega
  | popAbove | retAbove => exact absurd ha (by decide)

/-- Settles O32: the accesses by `memRead_out`, `memWrite_out`, `memRead_in` and `memWrite_in`; the negative addresses by
the inversion of `Raised`. -/
theorem memoryInterface : Obligations.MemoryInterface := by
  refine ⟨fun a v s ha => ⟨memRead_out s ha, memWrite_out v s ha⟩, fun a v s ha => ⟨memRead_in s ha, ?_⟩,
    fun i s t a hs h ht ha => (exec_faulted_inv hs h ht).sp_eq_zero_of_neg ha⟩
  obtain ⟨hmem, hreg, hothers⟩ := State.setMem_write_frame s a v
  exact ⟨_, memWrite_in v s ha, Memory.read_write_same s.mem a v, hmem, hreg, hothers, rfl⟩

end Sys2Proof.Machine
end


section
/-! The encoding of an instruction: its row of the opcode map and its operand bytes, and O4. -/

namespace Sys2Proof.Machine

/-- An encoding is the byte of the instruction's row and then its operand bytes (R56). -/
theorem encode_eq_some_cons (c : Config) (i : Instr) (op : Byte) (operands : List Byte) :
    encode c i = some (op :: operands) ↔ (i.mnemonic, op) ∈ c.rows ∧ i.operands = operands := by
  simp [encode, ← c.opcodeOf_eq_some]

/-- Settles O4: the row of a valid table agrees with bits 7:6 of its byte (`Config.valid_agrees`), and the row's count is
the number of operand bytes emitted (`Laws.Reassembly.all`). -/
theorem opcodeBitsGiveOperandCountAndSize : Obligations.OpcodeBitsGiveOperandCountAndSize := by
  intro c i op operands hv h
  obtain ⟨hrow, rfl⟩ := (encode_eq_some_cons c i op operands).1 h
  obtain ⟨hbits, -⟩ := Config.valid_agrees hv hrow
  obtain ⟨-, hlength⟩ := Laws.Reassembly.all i
  have hcount : opcodeCount op = i.operands.length := hbits.trans hlength.symm
  exact ⟨(opcodeCount_eq op).symm.trans hcount, congrArg (· + 1) hcount, congrArg (· + 1) hlength.symm⟩

end Sys2Proof.Machine
end


section
/-! The dispatcher: where a step leaves the pc (R81, R86, O11, O16), which bytes a fetch reads (R83, O12), and the
terminal states (R89, O14). -/

namespace Sys2Proof.Machine

/-! ### Where an instruction leaves the pc -/

/-- Bit 4 as the mask the spec writes (R58). -/
theorem opcodeSetsPc_iff (op : Byte) : opcodeSetsPc op = true ↔ op &&& 0b00010000 ≠ 0 := by
  have hmask : op &&& 0b00010000 = if op.getLsbD 4 then BitVec.twoPow 8 4 else 0 := BitVec.and_twoPow op 4
  rw [hmask, opcodeSetsPc]
  cases op.getLsbD 4 <;> decide

/-- JMP and the conditional jumps have the sets-PC bit (R58). -/
theorem setsPc_of_jump {i : Instr} (h : i.mnemonic = .JMP ∨ i.mnemonic ∈ conditionalJumps) : i.setsPc = true := by
  have hm : i.mnemonic ∈ Mnemonic.JMP :: conditionalJumps := List.mem_cons.2 h
  have hall : ∀ m ∈ Mnemonic.JMP :: conditionalJumps, m.setsPc = true := by decide
  exact hall i.mnemonic hm

/-- An instruction that raises nothing leaves the pc just past itself, or has the sets-PC bit and leaves it at a byte
(R86, R87). -/
theorem Effect.pc_cases {s t : State} {i : Instr} (h : Effect s i t) :
    t.pc = s.pc + i.size ∨ (i.setsPc = true ∧ t.pc < memSize) := by
  cases h with
  | writesReg | compares | stores | halts | nothing | pushes | pops | passes => exact .inl rfl
  | dividesByZero hi => obtain rfl | rfl := hi <;> exact .inl rfl
  | emits _ hi => obtain rfl | rfl := hi <;> exact .inl rfl
  | calls | returns => exact .inr ⟨rfl, byte_lt_memSize _⟩
  | jumps hm => exact .inr ⟨setsPc_of_jump hm, byte_lt_memSize _⟩

/-- A step keeps the pc in [0, 256]: the bytes of a fetched instruction all lie in memory (R27, R81). -/
theorem step_pc_le {s t : State} (hpc : s.pc ≤ memSize) (h : step s = .next t) : t.pc ≤ memSize := by
  obtain ⟨-, hv, ⟨c, -, rfl⟩ | ⟨i, hf, he⟩⟩ := step_inv h
  · exact hpc
  · obtain ⟨-, -, -, hsize⟩ := fetch_ok_row hv hf
    obtain ⟨c, rfl, -⟩ | heffect := exec_inv he
    · exact hpc
    · obtain hadvance | ⟨-, hbyte⟩ := heffect.pc_cases
      · exact hadvance.trans_le hsize
      · exact hbyte.le

/-- Settles O16: bit 4 of the opcode is the instruction's sets-PC column (`Config.valid_agrees`), so of the two places
of `Effect.pc_cases` only the first is left. -/
theorem automaticAdvance : Obligations.AutomaticAdvance := by
  intro i s t op operands _ hv henc hbit h ht
  obtain ⟨-, -, hsize⟩ := opcodeBitsGiveOperandCountAndSize s.cfg i op operands hv henc
  obtain ⟨hrow, -⟩ := (encode_eq_some_cons s.cfg i op operands).1 henc
  obtain ⟨-, hsets⟩ := Config.valid_agrees hv hrow
  obtain ⟨c, rfl, -⟩ | heffect := exec_inv h
  · exact absurd rfl (ht c)
  · obtain hadvance | ⟨hi, -⟩ := heffect.pc_cases
    · exact hsize ▸ hadvance
    · exact absurd hbit ((opcodeSetsPc_iff op).1 (hsets.trans hi))

/-! ### Which bytes a fetch reads -/

/-- A fetched instruction encodes to the bytes it was fetched from (R81, R83). -/
theorem encode_of_fetch {s : State} {i : Instr} (hv : s.cfg.valid = true) (h : fetch s = .ok i) :
    encode s.cfg i = some (Memory.read s.mem s.pc :: operandBytes s) := by
  obtain ⟨hrow, -, hops, -⟩ := fetch_ok_row hv h
  exact (encode_eq_some_cons s.cfg i _ _).2 ⟨hrow, hops⟩

/-- The opcode and its operand bytes are consecutive cells from the pc on (R56, R83). -/
theorem opcode_cons_operandBytes (s : State) :
    Memory.read s.mem s.pc :: operandBytes s =
      (List.range (opcodeCount (Memory.read s.mem s.pc) + 1)).map fun k => Memory.read s.mem (s.pc + k) := by
  rw [operandBytes, ← List.map_cons, ← List.range'_succ, List.range'_eq_map_range, List.map_map]
  rfl

/-- A fetch depends on the bytes of memory from the opcode to its last operand byte, and on no other (R83). -/
theorem fetch_setMem {s : State} {m : Memory}
    (h : ∀ k, k ≤ opcodeCount (Memory.read s.mem s.pc) → Memory.read m (s.pc + k) = Memory.read s.mem (s.pc + k)) :
    fetch (s.setMem m) = fetch s := by
  have hop : Memory.read m s.pc = Memory.read s.mem s.pc := h 0 (Nat.zero_le _)
  have hops : operandBytes (s.setMem m) = operandBytes s := by
    have hbytes := opcode_cons_operandBytes (s.setMem m)
    rw [State.setMem_mem, State.setMem_pc, hop,
      List.map_congr_left fun k hk => h k (Nat.lt_succ_iff.1 (List.mem_range.1 hk)), ← opcode_cons_operandBytes] at hbytes
    exact (List.cons.inj hbytes).2
  rcases Nat.lt_or_ge s.pc memSize with hpc | hpc
  · rcases Nat.lt_or_ge (s.pc + opcodeCount (Memory.read s.mem s.pc)) memSize with hn | hn
    · have hn' : (s.setMem m).pc + opcodeCount (Memory.read (s.setMem m).mem (s.setMem m).pc) < memSize := by
        rwa [State.setMem_mem, State.setMem_pc, hop]
      rw [fetch_in hn', fetch_in hn, hops, State.setMem_mem, State.setMem_pc, State.setMem_cfg, hop]
    · have hn' : memSize ≤ (s.setMem m).pc + opcodeCount (Memory.read (s.setMem m).mem (s.setMem m).pc) := by
        rwa [State.setMem_mem, State.setMem_pc, hop]
      rw [fetch_operand_out (s := s.setMem m) hpc hn', fetch_operand_out hpc hn]
  · rw [fetch_pc_out (s := s.setMem m) hpc, fetch_pc_out hpc, State.setMem_pc]

/-- Settles O11: the opcode byte by `encode_of_fetch`, the pc outside memory by `fetch_pc_out`, the pc a step leaves by
`step_pc_le`. -/
theorem opcodeFetch : Obligations.OpcodeFetch := by
  refine ⟨fun s i hv h => ⟨?_, operandBytes s, encode_of_fetch hv h⟩,
    fun s hs hv hpc => step_of_fetch_error hs hv (fetch_pc_out hpc), ?_⟩
  · obtain ⟨hn, -⟩ := fetch_ok_inv h
    exact (Nat.le_add_right _ _).trans_lt hn
  · rintro s t ⟨-, hpc, -⟩ h hge
    exact (step_pc_le hpc h).antisymm hge

/-- Settles O12: the bytes read by `fetch_ok_inv` and `encode_of_fetch`, an operand outside memory by
`fetch_operand_out`, the bytes not read by `fetch_setMem`. -/
theorem operandFetch : Obligations.OperandFetch := by
  simp only [Obligations.OperandFetch, ← opcodeCount_eq]
  refine ⟨fun s i hv h => ⟨?_, ?_⟩, fun s hs hv hpc hn => step_of_fetch_error hs hv (fetch_operand_out hpc hn),
    fun s m h => fetch_setMem h⟩
  · obtain ⟨hn, -⟩ := fetch_ok_inv h
    exact hn
  · rw [encode_of_fetch hv h, opcode_cons_operandBytes]

/-! ### The terminal states -/

theorem step_of_halted {s : State} (hs : s.status = .halted) : step s = .fault .stepOfHalted := by
  simp [step, hs]

theorem step_of_faulted {s : State} {c : Condition} (hs : s.status = .faulted c) :
    step s = .fault (.stepOfFaulted c) := by
  simp [step, hs]

/-- A run whose first step does not exist makes no step at all. -/
theorem run_succ_of_step_fault {s : State} {r : Fault} (h : step s = .fault r) (k : Nat) :
    Sys2Proof.core.run (k + 1) s = .fault r := by
  have hcore : Sys2Proof.core.step s = .fault r := h
  simp only [Host.Core.run, hcore]

/-- Settles O14: `step` answers a fault there, and a run of one step or more starts with that step. -/
theorem terminalStatesHaveNoStep : Obligations.TerminalStatesHaveNoStep :=
  ⟨fun _ hs => ⟨step_of_halted hs, run_succ_of_step_fault (step_of_halted hs)⟩,
    fun _ _ hs => ⟨step_of_faulted hs, run_succ_of_step_fault (step_of_faulted hs)⟩⟩

end Sys2Proof.Machine
end


section
/-! Which conditions a step ends faulted with (R199), and O22. -/

namespace Sys2Proof.Machine

/-- A step that ends `Faulted` had the condition raised by the fetch or by the fetched instruction. -/
theorem step_faulted_inv {s t : State} {c : Condition} (h : step s = .next t) (ht : t.status = .faulted c) :
    fetch s = .error c ∨ ∃ i, fetch s = .ok i ∧ Raised s i c := by
  obtain ⟨hs, -, ⟨d, hf, rfl⟩ | ⟨i, hf, he⟩⟩ := step_inv h
  · cases ht
    exact .inl hf
  · exact .inr ⟨i, hf, exec_faulted_inv hs he ht⟩

theorem fetch_ne_unsupportedALUOperation (s : State) : fetch s ≠ .error .unsupportedALUOperation := by
  intro h
  obtain ⟨-, hc⟩ | ⟨-, -, hc⟩ | ⟨-, -, hc⟩ := fetch_error_inv h <;> cases hc

theorem not_raised_unsupportedALUOperation (s : State) (i : Instr) : ¬ Raised s i .unsupportedALUOperation := nofun

/-- Settles O22: the condition is none of those of the fetch (`fetch_error_inv`) and none of those an instruction raises
(`Raised`). -/
theorem unsupportedAluOperationNeverRaised : Obligations.UnsupportedAluOperationNeverRaised := by
  intro s t h ht
  obtain hf | ⟨i, -, hr⟩ := step_faulted_inv h ht
  · exact fetch_ne_unsupportedALUOperation s hf
  · exact not_raised_unsupportedALUOperation s i hr

end Sys2Proof.Machine
end


section
/-! Data movement and halt (R120, R125): the fixed bytes of LDI and HLT, what the two instructions do, and O41 and O45. -/

namespace Sys2Proof.Machine

/-! ### The fixed bytes -/

/-- An instruction of the opcode map encodes to its byte there and its operand bytes (R56, R66). -/
theorem encode_of_mem_opcodes {c : Config} {i : Instr} {op : Byte} (h : (i.mnemonic, op) ∈ c.opcodes.rows) :
    encode c i = some (op :: i.operands) :=
  (encode_eq_some_cons c i op i.operands).2 ⟨List.mem_append_left _ h, rfl⟩

theorem encode_ldi {c : Config} (hv : c.valid = true) (a imm : Byte) : encode c (.ldi a imm) = some [0x82, a, imm] := by
  obtain ⟨hldi, -, -⟩ := Config.valid_fixed hv
  exact encode_of_mem_opcodes (by simp [← hldi, Instr.mnemonic, OpcodeMap.rows])

theorem encode_hlt {c : Config} (hv : c.valid = true) : encode c .hlt = some [0x01] := by
  obtain ⟨-, -, hhlt⟩ := Config.valid_fixed hv
  exact encode_of_mem_opcodes (by simp [← hhlt, Instr.mnemonic, OpcodeMap.rows])

/-! ### LDI -/

/-- Of LDI's two operand bytes only the first names a register (R63). -/
theorem firstInvalid_ldi {a : Byte} (imm : Byte) (h : 7 < a.toNat) : firstInvalid (.ldi a imm) = some a := by
  simp [firstInvalid, Instr.regOperands, h]

/-- Settles O41: LDI is `updateReg` with a constant function, and a register above 7 is its first invalid operand. -/
theorem loadImmediate : Obligations.LoadImmediate :=
  ⟨fun _ a imm hv => encode_ldi hv a imm,
    fun _ imm _ => updateReg_writes (f := fun _ => imm) rfl,
    fun _ imm s ha => exec_invalid s (firstInvalid_ldi imm ha)⟩

/-! ### HLT -/

theorem exec_hlt (s : State) : exec .hlt s = .next (s.halt.setPc (s.pc + 1)) := rfl

/-- Settles O45: the state HLT leaves is `exec_hlt`'s, from which `step_of_halted` answers a fault. -/
theorem haltStopsPastItself : Obligations.HaltStopsPastItself := by
  refine ⟨fun _ => encode_hlt, fun s => ⟨_, exec_hlt s, rfl, rfl, fun _ => rfl, fun _ => rfl, rfl, rfl, rfl, rfl, ?_⟩⟩
  intro u hstep
  rw [step_of_halted rfl] at hstep
  cases hstep

end Sys2Proof.Machine
end


section
/-! Control flow (R151, R152, R163): what CALL and RET leave, and O52. -/

namespace Sys2Proof.Machine

/-- CALL is a push of the address after it and a jump to the register as the push leaves it (R151, D25). -/
theorem exec_call {s t : State} (r : Fin 8) (hret : s.pc + 2 < 256)
    (hpush : push (BitVec.ofNat 8 (s.pc + 2)) s = .ok t) :
    exec (.call (regOperand r)) s = .next (t.setPc (t.getReg r).toNat) := by
  have hcheck : ¬ 0xFF < s.pc + 2 := by omega
  simp [exec, execCall, callReg, hcheck, hpush]

/-- RET, with `SP` below 0xFF, pops into the pc (R152). -/
theorem exec_ret {s : State} (h : s.sp ≠ 0xFF) :
    exec .ret s = .next ((s.setSp (s.sp + 1)).setPc (Memory.read s.mem s.sp.toNat).toNat) := by
  rw [exec, execRet, returnFromCall, pop_below h, ok_bind]
  rfl

/-- A checked decrement of `SP` leaves room for the increment that undoes it (R136, R137, D8). -/
theorem sub_one_ne_top {v : Byte} (h : v ≠ 0) : v - 1 ≠ 0xFF := by
  bv_omega

/-- Settles O52: after `exec_call` the byte at `SP` is the return address, and in a state that agrees on both `exec_ret`
takes it for the pc and undoes the decrement of `SP`. -/
theorem callReturnConvention : Obligations.CallReturnConvention := by
  intro r s hsp hret
  have hbyte : (BitVec.ofNat 8 (s.pc + 2) : Byte).toNat = s.pc + 2 := Nat.mod_eq_of_lt hret
  have hpushed := Memory.read_write_same s.mem (s.sp - 1).toNat (BitVec.ofNat 8 (s.pc + 2))
  refine ⟨_, exec_call r hret (push_pos _ hsp), fun hr => ?_, ?_, fun u husp hread => ?_⟩
  · have hother : spIndex ≠ r := Ne.symm hr
    rw [State.setPc_pc, State.setMem_getReg, State.getReg_setSp, if_neg hother]
  · rw [State.setPc_sp, State.setMem_sp, State.sp_setSp, State.setPc_mem, State.setMem_mem, hpushed, hbyte]
  · rw [State.setPc_sp, State.setMem_sp, State.sp_setSp] at husp hread
    rw [State.setPc_mem, State.setMem_mem, hpushed] at hread
    refine ⟨_, exec_ret (husp ▸ sub_one_ne_top hsp), ?_, ?_⟩
    · rw [State.setPc_pc, hread, hbyte]
    · rw [State.setPc_sp, State.sp_setSp, husp, BitVec.sub_add_cancel]

end Sys2Proof.Machine
end


section
/-! Exceptions (R194): the fetch of an opcode that is not recognized, and O13. -/

namespace Sys2Proof.Machine

/-- Only the opcode decides whether the lookup fails, not the operand bytes (R84). -/
theorem decodeFields_eq_none_iff (c : Config) (op : Byte) (operands : List Byte) :
    decodeFields c op operands = none ↔ c.lookup op = none :=
  Option.map_eq_none_iff

/-- R84: all bytes in memory, but no row for the opcode. -/
theorem fetch_unrecognized {s : State} (hn : s.pc + opcodeCount (Memory.read s.mem s.pc) < memSize)
    (h : s.cfg.lookup (Memory.read s.mem s.pc) = none) :
    fetch s = .error (.unrecognizedOpcode (Memory.read s.mem s.pc)) := by
  rw [fetch_in hn, (decodeFields_eq_none_iff s.cfg _ (operandBytes s)).2 h]

/-- Settles O13: the fetch raises the condition (`fetch_unrecognized`), and the step enters `Faulted` with it. -/
theorem unrecognizedOpcodeRaises : Obligations.UnrecognizedOpcodeRaises := by
  intro s hs hv hn hlookup
  rw [← opcodeCount_eq] at hn
  exact ⟨_, step_of_fetch_error hs hv (fetch_unrecognized hn hlookup), State.enterFault_status s _⟩

end Sys2Proof.Machine
end


section
/-! The opcode map read both ways: the decoder against the encoder (R56, R61, R84), the optional instructions (R68,
R175), the valid configurations (R9), and O1, O2, O3, O5, O6, O7, O8 and O9. -/

namespace Sys2Proof

open Machine

/-! ### Decoder and encoder -/

/-- The decoder takes an opcode, as many operand bytes as its bits 7:6 call for, and leaves the rest (R82, R83). -/
theorem decode_eq_ok_iff (c : Config) (bytes rest : List Byte) (i : Instr) :
    decode c bytes = .ok (i, rest) ↔
      ∃ op operands, bytes = op :: (operands ++ rest) ∧ operands.length = opcodeCount op
        ∧ decodeFields c op operands = some i := by
  constructor
  · intro h
    cases bytes with
    | nil => cases h
    | cons op tail =>
      rw [decode] at h
      split at h
      · cases h
      · next hlen =>
        split at h
        · cases h
        · next j hj =>
          cases h
          exact ⟨op, tail.take (opcodeCount op), by rw [List.take_append_drop],
            List.length_take_of_le (Nat.le_of_not_lt hlen), hj⟩
  · rintro ⟨op, operands, rfl, hlen, hi⟩
    have hfits : ¬ (operands ++ rest).length < opcodeCount op := by
      rw [List.length_append]
      omega
    rw [decode, if_neg hfits, ← hlen, List.take_left, List.drop_left, hi]

/-- In a valid table decoding and encoding are inverse to each other on the recognized instructions (R61). -/
theorem decode_eq_ok_iff_encode {c : Config} (hv : c.valid = true) (bytes rest : List Byte) (i : Instr) :
    decode c bytes = .ok (i, rest) ↔
      c.recognizes i.mnemonic = true ∧ ∃ ws, encode c i = some ws ∧ bytes = ws ++ rest := by
  rw [decode_eq_ok_iff]
  constructor
  · rintro ⟨op, operands, rfl, hlen, hi⟩
    obtain ⟨hrow, hrec, hops⟩ := (decodeFields_eq_some hv hlen i).1 hi
    exact ⟨hrec, op :: operands, (encode_eq_some_cons c i op operands).2 ⟨hrow, hops⟩, rfl⟩
  · rintro ⟨hrec, ws, henc, rfl⟩
    obtain ⟨op, hop, rfl⟩ := Option.map_eq_some_iff.1 henc
    have hrow := (c.opcodeOf_eq_some i.mnemonic op).1 hop
    obtain ⟨hbits, -⟩ := Config.valid_agrees hv hrow
    obtain ⟨-, hcount⟩ := Laws.Reassembly.all i
    have hlen : i.operands.length = opcodeCount op := hcount.trans hbits.symm
    exact ⟨op, i.operands, rfl, hlen, (decodeFields_eq_some hv hlen i).2 ⟨hrow, hrec, rfl⟩⟩

/-- Settles O2: a recognized instruction has an opcode, and `decode_eq_ok_iff_encode` reads its encoding back. -/
theorem decodeOfEncode : Obligations.DecodeOfEncode := by
  intro c i rest hv hrec
  obtain ⟨op, hop⟩ := c.opcodeOf_of_recognizes hv hrec
  have henc : encode c i = some (op :: i.operands) := congrArg (Option.map (· :: i.operands)) hop
  exact ⟨_, henc, (decode_eq_ok_iff_encode hv _ rest i).2 ⟨hrec, _, henc, rfl⟩⟩

/-- Settles O3: `decode_eq_ok_iff_encode`, from left to right. -/
theorem encodeOfDecode : Obligations.EncodeOfDecode := by
  intro c bytes rest i hv h
  obtain ⟨-, hws⟩ := (decode_eq_ok_iff_encode hv bytes rest i).1 h
  exact hws

/-- Settles O1: the decoder evaluated on each of the words. -/
theorem writtenOutWordsDecode : Obligations.WrittenOutWordsDecode :=
  ⟨rfl, rfl, rfl, rfl, rfl, rfl, rfl, rfl, rfl, rfl⟩

/-! ### Bit 4 of the opcode -/

/-- The instructions whose handler sets the pc (R58). -/
theorem Mnemonic.setsPc_iff (m : Mnemonic) :
    m.setsPc = true ↔ m ∈ [Mnemonic.CALL, .RET, .JMP, .JEQ, .JNE, .JGT, .JGE, .JLT, .JLE, .INT, .IRET] := by
  cases m <;> decide

/-- Settles O5: bit 4 is the instruction's column "sets PC" (`Config.valid_agrees`), which `Mnemonic.setsPc_iff`
lists. -/
theorem opcodeBit4MarksControlFlow : Obligations.OpcodeBit4MarksControlFlow := by
  intro c i op operands hv henc
  obtain ⟨hrow, -⟩ := (encode_eq_some_cons c i op operands).1 henc
  obtain ⟨-, hsets⟩ := Config.valid_agrees hv hrow
  rw [← opcodeSetsPc_iff, hsets, Mnemonic.setsPc_iff]

/-! ### The lookup -/

/-- Settles O7: both sides say that the byte's row is the instruction's and that it is recognized. -/
theorem lookupIsTheOpcodeMap : Obligations.LookupIsTheOpcodeMap := by
  intro c op m hv
  rw [Config.lookup_eq_some hv, Config.opcodeOf_eq_some]

/-- The recognized opcodes are the bytes of the rows whose instruction is recognized (R70). -/
theorem Config.lookup_isSome_iff (c : Config) (op : Byte) :
    (c.lookup op).isSome = true ↔ op ∈ (c.rows.filter fun r => c.recognizes r.1).map Prod.snd := by
  rw [Config.lookup, Option.isSome_map, List.find?_isSome, List.mem_map]
  constructor
  · rintro ⟨r, hr, hp⟩
    obtain ⟨hop, hrec⟩ : r.2 = op ∧ c.recognizes r.1 = true := by simpa using hp
    exact ⟨r, List.mem_filter.2 ⟨hr, hrec⟩, hop⟩
  · rintro ⟨r, hr, rfl⟩
    obtain ⟨hr, hrec⟩ := List.mem_filter.1 hr
    exact ⟨r, hr, by simp [hrec]⟩

/-- Settles O6: the 30 bytes are, in the table's order, those of the recognized rows (`Config.lookup_isSome_iff`). -/
theorem defaultRecognizedOpcodes : Obligations.DefaultRecognizedOpcodes :=
  Config.lookup_isSome_iff defaultConfig

/-- In a valid table a byte has one row. -/
theorem Config.mnemonic_unique {c : Config} (hv : c.valid = true) {m n : Mnemonic} {op : Byte}
    (hm : (m, op) ∈ c.rows) (hn : (n, op) ∈ c.rows) : m = n :=
  congrArg Prod.fst (List.inj_on_of_nodup_map (Config.valid_nodup hv) hm hn rfl)

/-- What the lookup answers for a byte that has a row: its instruction, if it is recognized (R70, R84). -/
theorem Config.lookup_of_mem_rows {c : Config} (hv : c.valid = true) {m : Mnemonic} {op : Byte}
    (h : (m, op) ∈ c.rows) : c.lookup op = if c.recognizes m = true then some m else none := by
  split
  · next hrec => exact (Config.lookup_eq_some hv op m).2 ⟨h, hrec⟩
  · next hrec =>
    refine (Config.lookup_eq_none hv op).2 fun n hn => ?_
    rw [Config.mnemonic_unique hv hn h]
    exact Bool.eq_false_of_not_eq_true hrec

/-- ADDI has a row exactly when it is enabled and has an opcode (R180). -/
theorem Config.addi_mem_rows (c : Config) (op : Byte) :
    (Mnemonic.ADDI, op) ∈ c.rows ↔ c.extensions.ADDI = true ∧ c.addiOpcode = some op := by
  have hmap : (Mnemonic.ADDI, op) ∉ c.opcodes.rows := fun h => c.opcodes.addi_not_mem (List.mem_map_of_mem h)
  simp [Config.rows, Config.mem_addiRow, hmap]

/-- Settles O8: the four rows of the opcode map by `Config.lookup_of_mem_rows`, ADDI by `Config.addi_mem_rows`. -/
theorem extensionsRecognizedWhenEnabled : Obligations.ExtensionsRecognizedWhenEnabled := by
  intro c hv
  have hrow : ∀ m op, (m, op) ∈ c.opcodes.rows → c.lookup op = if c.recognizes m = true then some m else none :=
    fun m op h => Config.lookup_of_mem_rows hv (List.mem_append_left _ h)
  refine ⟨hrow .NOP _ (by simp [OpcodeMap.rows]), hrow .INC _ (by simp [OpcodeMap.rows]),
    hrow .DEC _ (by simp [OpcodeMap.rows]), hrow .NOT _ (by simp [OpcodeMap.rows]), fun op => ?_,
    fun q hdisabled _ hq => ?_⟩
  · rw [Config.lookup_eq_some hv, Config.addi_mem_rows]
    exact and_iff_left_of_imp fun h => h.1
  · refine (Config.lookup_eq_none hv q).2 fun m hm => ?_
    obtain hmap | haddi := List.mem_append.1 hm
    · exact absurd (List.mem_map_of_mem hmap) hq
    · obtain ⟨-, henabled, -⟩ := (c.mem_addiRow m q).1 haddi
      rw [hdisabled] at henabled
      cases henabled

/-! ### Valid configurations -/

theorem Config.valid_iff (c : Config) :
    c.valid = true ↔ (c.rows.map Prod.snd).Nodup
      ∧ (∀ r ∈ c.rows, opcodeCount r.2 = r.1.operandCount ∧ opcodeSetsPc r.2 = r.1.setsPc)
      ∧ c.opcodes.LDI = 0x82 ∧ c.opcodes.PRN = 0x47 ∧ c.opcodes.HLT = 0x01
      ∧ (c.extensions.ADDI = true → c.addiOpcode ≠ none) := by
  simp [Config.valid, allDistinct_iff, rowAgrees, Option.isSome_iff_ne_none, and_assoc, imp_iff_not_or]

theorem Config.rows_nodup (c : Config) : c.rows.Nodup := by
  refine List.Nodup.append c.opcodes.rows_nodup.of_map ?_ fun r hmap haddi => ?_
  · unfold Config.addiRow
    split <;> simp
  · obtain ⟨hr, -⟩ := (c.mem_addiRow r.1 r.2).1 haddi
    exact c.opcodes.addi_not_mem (hr ▸ List.mem_map_of_mem hmap)

/-- A table has no byte twice exactly when no two names have a row of one byte (R9). -/
theorem Config.bytes_nodup_iff (c : Config) :
    (c.rows.map Prod.snd).Nodup ↔ ∀ m n op, (m, op) ∈ c.rows → (n, op) ∈ c.rows → m = n := by
  rw [List.nodup_map_iff_inj_on c.rows_nodup]
  constructor
  · intro h m n op hm hn
    exact congrArg Prod.fst (h _ hm _ hn rfl)
  · rintro h ⟨m, op⟩ hm ⟨n, _⟩ hn rfl
    rw [h m n op hm hn]

/-- Bit 4 of the opcode byte as a number (R58). -/
theorem opcodeSetsPc_iff_toNat (op : Byte) : opcodeSetsPc op = true ↔ op.toNat / 16 % 2 = 1 := by
  simp [opcodeSetsPc, BitVec.getLsbD, Nat.testBit_eq_decide_div_mod_eq]

/-- Settles O9: `Config.valid_iff` with its first two clauses said by name (`Config.bytes_nodup_iff`) and by number. -/
theorem validConfigurationMeans : Obligations.ValidConfigurationMeans := by
  intro c
  simp only [Config.opcodeOf_eq_some, ← opcodeCount_eq, ← opcodeSetsPc_iff_toNat, ← Bool.eq_iff_iff]
  rw [Config.valid_iff, Config.bytes_nodup_iff, Prod.forall]

end Sys2Proof
end


section
/-! What the effects of the instructions leave unchanged, field by field: the parameters, the output stream and memory,
and O28, O30 and O31. -/

namespace Sys2Proof.Machine

/-! ### The parameters -/

theorem Effect.cfg_eq {s t : State} {i : Instr} (h : Effect s i t) : t.cfg = s.cfg := by
  cases h with
  | calls _ _ _ _ _ ht => rw [State.setPc_cfg, ht, State.setMem_cfg, State.setSp_cfg]
  | writesReg | compares | dividesByZero | stores | emits | halts | nothing | pushes | pops | returns | jumps
  | passes => rfl

theorem exec_cfg_eq {i : Instr} {s t : State} (h : exec i s = .next t) : t.cfg = s.cfg := by
  obtain ⟨c, rfl, -⟩ | heffect := exec_inv h
  · exact State.enterFault_cfg s c
  · exact heffect.cfg_eq

theorem step_cfg_eq {s t : State} (h : step s = .next t) : t.cfg = s.cfg := by
  obtain ⟨-, -, ⟨c, -, rfl⟩ | ⟨i, -, he⟩⟩ := step_inv h
  · exact State.enterFault_cfg s c
  · exact exec_cfg_eq he

/-- Settles O28: no effect of `Effect` touches `cfg`, and neither does fault entry. -/
theorem parametersNeverChange : Obligations.ParametersNeverChange :=
  ⟨fun _ _ _ => exec_cfg_eq, fun _ _ => step_cfg_eq⟩

/-! ### The output stream -/

/-- The output is as before, or PRN or PRA has appended to it (R33). -/
theorem Effect.out_cases {s t : State} {i : Instr} (h : Effect s i t) :
    t.out = s.out ∨ ∃ a cs, (i = .prn a ∨ i = .pra a) ∧ t.out = s.out ++ cs := by
  cases h with
  | emits cs hi => exact .inr ⟨_, cs, hi, rfl⟩
  | calls _ _ _ _ _ ht => exact .inl (by rw [State.setPc_out, ht, State.setMem_out, State.setSp_out])
  | writesReg | compares | dividesByZero | stores | halts | nothing | pushes | pops | returns | jumps | passes =>
    exact .inl rfl

theorem exec_out_eq {i : Instr} {s t : State} (h : exec i s = .next t) (hi : ∀ a, i ≠ .prn a ∧ i ≠ .pra a) :
    t.out = s.out := by
  obtain ⟨c, rfl, -⟩ | heffect := exec_inv h
  · exact State.enterFault_out s c
  · obtain hout | ⟨a, -, hprint, -⟩ := heffect.out_cases
    · exact hout
    · obtain ⟨hprn, hpra⟩ := hi a
      exact absurd hprint (not_or.2 ⟨hprn, hpra⟩)

theorem exec_out_grows {i : Instr} {s t : State} (h : exec i s = .next t) : s.out <+: t.out := by
  obtain ⟨c, rfl, -⟩ | heffect := exec_inv h
  · exact ⟨[], List.append_nil _⟩
  · obtain hout | ⟨-, cs, -, hout⟩ := heffect.out_cases
    · exact ⟨[], (List.append_nil _).trans hout.symm⟩
    · exact ⟨cs, hout.symm⟩

theorem step_out_grows {s t : State} (h : step s = .next t) : s.out <+: t.out := by
  obtain ⟨-, -, ⟨c, -, rfl⟩ | ⟨i, -, he⟩⟩ := step_inv h
  · exact ⟨[], List.append_nil _⟩
  · exact exec_out_grows he

/-- Settles O30: `Effect.out_cases` for one instruction, and by transitivity along the steps of a run. -/
theorem outputOnlyGrows : Obligations.OutputOnlyGrows := by
  refine ⟨fun i s t h hi => exec_out_eq h hi, fun s t h => ?_⟩
  have hgrows : s.out <+: t.out :=
    reaches_induction (P := fun u => s.out <+: u.out) (fun _ _ hu hstep => hu.trans (step_out_grows hstep))
      ⟨[], List.append_nil _⟩ h
  obtain ⟨w, hw⟩ := hgrows
  exact ⟨w, hw.symm⟩

/-! ### Memory -/

/-- Memory is as before, or it has the one write of a ST, a PUSH or a CALL (R42). -/
theorem Effect.mem_cases {s t : State} {i : Instr} (h : Effect s i t) :
    t.mem = s.mem
    ∨ (∃ (a b v : Byte) (r : Fin 8), i = .st a b ∧ a.toNat = r.val ∧ t.mem = Memory.write s.mem (s.getReg r).toNat v)
    ∨ (∃ a v : Byte, (i = .push a ∨ i = .call a) ∧ s.sp ≠ 0 ∧ t.mem = Memory.write s.mem (s.sp - 1).toNat v) := by
  cases h with
  | stores ha _ => exact .inr (.inl ⟨_, _, _, _, rfl, ha, rfl⟩)
  | pushes a v hsp => exact .inr (.inr ⟨a, v, .inl rfl, hsp, rfl⟩)
  | calls v _ _ hsp _ ht => exact .inr (.inr ⟨_, v, .inr rfl, hsp, by rw [State.setPc_mem, ht, State.setMem_mem]⟩)
  | writesReg | compares | dividesByZero | emits | halts | nothing | pops | returns | jumps | passes => exact .inl rfl

theorem memoryKept_of_mem_eq {s t : State} (h : t.mem = s.mem) : MemoryKept s t := fun _ => by rw [h]

theorem memoryKeptBut_of_mem_eq_write {s t : State} {a : Nat} {v : Byte} (h : t.mem = Memory.write s.mem a v) :
    MemoryKeptBut a s t := fun b hb => by rw [h, Memory.read_write_other s.mem v hb.symm]

theorem MemoryKept.but {s t : State} (h : MemoryKept s t) (a : Nat) : MemoryKeptBut a s t := fun b _ => h b

/-- Settles O31: fault entry keeps memory, and the three cases of `Effect.mem_cases` are the three clauses. -/
theorem memoryWrittenOnlyByStores : Obligations.MemoryWrittenOnlyByStores := by
  intro i s t h
  have hcases : MemoryKept s t
      ∨ (∃ (a b : Byte) (r : Fin 8), i = .st a b ∧ a.toNat = r.val ∧ MemoryKeptBut (s.getReg r).toNat s t)
      ∨ (∃ a, (i = .push a ∨ i = .call a) ∧ MemoryKeptBut (s.sp.toNat - 1) s t) := by
    obtain ⟨c, rfl, -⟩ | heffect := exec_inv h
    · exact .inl fun _ => rfl
    · obtain hmem | ⟨a, b, v, r, hi, ha, hmem⟩ | ⟨a, v, hi, hsp, hmem⟩ := heffect.mem_cases
      · exact .inl (memoryKept_of_mem_eq hmem)
      · exact .inr (.inl ⟨a, b, r, hi, ha, memoryKeptBut_of_mem_eq_write hmem⟩)
      · exact .inr (.inr ⟨a, hi, toNat_sub_one hsp ▸ memoryKeptBut_of_mem_eq_write hmem⟩)
  obtain hkept | ⟨a, b, r, rfl, ha, hkept⟩ | ⟨a, hi, hkept⟩ := hcases
  · exact ⟨fun _ _ => hkept, fun _ _ _ _ _ => hkept.but _, fun _ _ => hkept.but _⟩
  · refine ⟨fun hst _ => absurd rfl (hst a b), fun a' b' q hi ha' => ?_, fun _ hi => ?_⟩
    · cases hi
      obtain rfl : r = q := Fin.ext (ha.symm.trans ha')
      exact hkept
    · obtain hi | hi := hi <;> cases hi
  · refine ⟨fun _ hpush => ?_, fun _ _ _ hst => ?_, fun _ _ => hkept⟩
    · obtain ⟨hnotPush, hnotCall⟩ := hpush a
      exact absurd hi (not_or.2 ⟨hnotPush, hnotCall⟩)
    · obtain rfl | rfl := hi <;> cases hst

end Sys2Proof.Machine
end


section
/-! The run status and the conditions (R94, R190 to R203): which conditions end a step, what it leaves then and what the
snapshot shows of it, and O18 to O21, O23 and O24. -/

namespace Sys2Proof.Machine

/-! ### Codes and classes -/

/-- Settles O23: the two columns of R191, row by row. -/
theorem conditionCodes : Obligations.ConditionCodes :=
  ⟨fun _ => ⟨rfl, rfl⟩, fun _ => ⟨rfl, rfl⟩, fun _ => ⟨rfl, rfl⟩, ⟨rfl, rfl⟩, fun _ => ⟨rfl, rfl⟩, ⟨rfl, rfl⟩,
    fun _ => ⟨rfl, rfl⟩, ⟨rfl, rfl⟩⟩

/-! ### Fault entry -/

/-- A running core that an instruction leaves `Faulted` has gone through fault entry, which discards the rest (R195). -/
theorem exec_faulted_eq {i : Instr} {s t : State} {c : Condition} (hs : s.status = .running) (h : exec i s = .next t)
    (ht : t.status = .faulted c) : t = s.enterFault c := by
  obtain ⟨d, rfl, -⟩ | heffect := exec_inv h
  · cases ht
    rfl
  · obtain hkept | hhalted := heffect.status_cases
    · rw [ht, hs] at hkept
      cases hkept
    · rw [ht] at hhalted
      cases hhalted

theorem step_faulted_eq {s t : State} {c : Condition} (h : step s = .next t) (ht : t.status = .faulted c) :
    t = s.enterFault c := by
  obtain ⟨hs, -, ⟨d, -, rfl⟩ | ⟨i, -, he⟩⟩ := step_inv h
  · cases ht
    rfl
  · exact exec_faulted_eq hs he ht

/-- Settles O18: fault entry is `enterFault`, which writes the run status and nothing else. -/
theorem faultDiscardsEffects : Obligations.FaultDiscardsEffects :=
  ⟨fun _ _ _ _ => exec_faulted_eq, fun _ _ _ => step_faulted_eq⟩

/-! ### The run status -/

/-- What an instruction that raises nothing does to the run status and to the diagnostic channel (R94, R196). -/
theorem Effect.status_diag_cases {s t : State} {i : Instr} (h : Effect s i t) :
    (t.status = s.status ∧ t.diag = s.diag)
    ∨ (t.status = .halted ∧ i = .hlt ∧ t.diag = s.diag)
    ∨ (t.status = .halted ∧ t.diag = s.diag ++ [.divisionByZero]
        ∧ ∃ (a b : Byte) (r : Fin 8), (i = .div a b ∨ i = .mod a b) ∧ b.toNat = r.val ∧ s.getReg r = 0) := by
  cases h with
  | halts => exact .inr (.inl ⟨rfl, rfl, rfl⟩)
  | dividesByZero hi hb h0 => exact .inr (.inr ⟨rfl, rfl, _, _, _, hi, hb, h0⟩)
  | calls _ _ _ _ _ ht => exact .inl (by rw [ht]; exact ⟨rfl, rfl⟩)
  | writesReg | compares | stores | emits | nothing | pushes | pops | returns | jumps | passes => exact .inl ⟨rfl, rfl⟩

/-- Every condition an instruction raises is fatal (R190, R191). -/
theorem Raised.cls_eq_fatal {s : State} {i : Instr} {c : Condition} (h : Raised s i c) : c.cls = .fatal := by
  cases h <;> rfl

/-- Settles O19: fault entry with a condition of `Raised`, or the three cases of `Effect.status_diag_cases`. -/
theorem statusTransitions : Obligations.StatusTransitions := by
  intro i s t hs h
  obtain ⟨c, rfl, hc⟩ | heffect := exec_inv h
  · exact .inr (.inr (.inr ⟨c, State.enterFault_status s c, hc.cls_eq_fatal, State.enterFault_diag s c⟩))
  · obtain ⟨hstatus, hdiag⟩ | hhlt | hzero := heffect.status_diag_cases
    · exact .inl ⟨hstatus.trans hs, hdiag⟩
    · exact .inr (.inl hhlt)
    · exact .inr (.inr (.inl hzero))

/-! ### Which condition -/

theorem raised_invalidRegister_iff (s : State) (i : Instr) (k : Byte) :
    Raised s i (.invalidRegister k) ↔ firstInvalid i = some k := by
  refine ⟨fun h => ?_, .invalidRegister⟩
  cases h with
  | invalidRegister hk => exact hk

/-- Settles O20: the condition is raised for the first operand above 7 (`raised_invalidRegister_iff`), and always
(`exec_invalid`). -/
theorem invalidRegisterRaisedExactly : Obligations.InvalidRegisterRaisedExactly := by
  intro i s k hs
  constructor
  · rintro ⟨t, h, ht⟩
    exact (raised_invalidRegister_iff s i k).1 (exec_faulted_inv hs h ht)
  · intro hk
    exact ⟨_, exec_invalid s hk, State.enterFault_status s _⟩

/-- An address a fetch raises, from a pc in [0, 256], is the first one beyond memory (R81, R83). -/
theorem fetch_addressOutOfRange {s : State} {a : Int} (hpc : s.pc ≤ memSize)
    (h : fetch s = .error (.addressOutOfRange a)) : a = 0x100 := by
  obtain ⟨hout, hc⟩ | ⟨-, -, hc⟩ | ⟨-, -, hc⟩ := fetch_error_inv h
  · cases hc
    rw [hpc.antisymm hout]
    rfl
  · cases hc
    rfl
  · cases hc

/-- An address a fetched instruction raises (R192): the return address of a CALL whose two bytes lie in memory is at
most 0x100, and it is no byte. -/
theorem Raised.addressOutOfRange_cases {s : State} {i : Instr} {a : Int} (h : Raised s i (.addressOutOfRange a))
    (hsize : s.pc + i.size ≤ memSize) :
    a = 0x100 ∨ (a = -1 ∧ s.sp = 0 ∧ ((∃ r, i = .push r) ∨ ∃ r, i = .call r)) := by
  cases h with
  | pushBelow r hsp => exact .inr ⟨rfl, hsp, .inl ⟨r, rfl⟩⟩
  | callBelow r hsp => exact .inr ⟨rfl, hsp, .inr ⟨r, rfl⟩⟩
  | callReturn r hret =>
    have hle : s.pc + 2 ≤ 256 := hsize
    have heq : s.pc + 2 = 256 := by omega
    exact .inl (by rw [heq]; rfl)
  | popAbove | retAbove => exact .inl rfl

/-- Settles O21: the address is the fetch's (`fetch_addressOutOfRange`) or the fetched instruction's
(`Raised.addressOutOfRange_cases`). -/
theorem addressOutOfRangeCases : Obligations.AddressOutOfRangeCases := by
  intro s t a hpc h ht
  obtain ⟨-, hv, -⟩ := step_inv h
  obtain hf | ⟨i, hf, hraised⟩ := step_faulted_inv h ht
  · exact .inl (fetch_addressOutOfRange hpc hf)
  · obtain ⟨-, -, -, hsize⟩ := fetch_ok_row hv hf
    obtain ha | ⟨ha, hsp, hi⟩ := hraised.addressOutOfRange_cases hsize
    · exact .inl ha
    · exact .inr ⟨ha, hsp, i, hf, hi⟩

/-! ### The snapshot -/

/-- Of consecutive addresses, those below a bound are the first ones. -/
theorem range'_filter_lt (a n bound : Nat) :
    ((List.range' a n).filter fun b => b < bound) = List.range' a (min n (bound - a)) := by
  induction n generalizing a with
  | zero => rw [Nat.zero_min]; rfl
  | succ n ih =>
    rw [List.range'_succ, List.filter_cons, ih]
    by_cases ha : a < bound
    · have hmin : min (n + 1) (bound - a) = min n (bound - (a + 1)) + 1 := by omega
      rw [if_pos (decide_eq_true ha), hmin, List.range'_succ]
    · have hmin : min n (bound - (a + 1)) = 0 ∧ min (n + 1) (bound - a) = 0 := by omega
      simp [ha, hmin]

/-- The cells of a snapshot are those of the three addresses from the pc on that lie in memory (R203). -/
theorem snapshot_cells_getElem? (s : State) (k : Nat) :
    s.snapshot.cells[k]? = if k < 3 ∧ s.pc + k < memSize then some (Memory.read s.mem (s.pc + k)) else none := by
  have hcells : s.snapshot.cells = (List.range' s.pc (min 3 (memSize - s.pc))).map (Memory.read s.mem) :=
    congrArg (List.map (Memory.read s.mem)) (range'_filter_lt s.pc 3 memSize)
  rw [hcells, List.getElem?_map]
  split
  · next hk => rw [List.getElem?_range' (by omega), Nat.one_mul, Option.map_some]
  · next hk =>
    rw [List.getElem?_eq_none (by rw [List.length_range']; omega), Option.map_none]

/-- Settles O24: the snapshot copies pc, `FL` and the registers, and its cells are `snapshot_cells_getElem?`'s. -/
theorem snapshotOfFaultedState : Obligations.SnapshotOfFaultedState := by
  refine ⟨fun s c hs => ⟨s.snapshot, ?_, rfl, rfl, fun _ => rfl, snapshot_cells_getElem? s⟩, fun s hs => ?_⟩
  · simp [State.diagnostic, hs]
  · cases h : s.status with
    | faulted c => exact absurd h (hs c)
    | running | halted => simp [State.diagnostic, h]

end Sys2Proof.Machine
end


section
/-! The state after reset and the invariant of the core (R38, R215), and O25, O26 and O27. -/

namespace Sys2Proof.Machine

/-! ### Reset -/

/-- Settles O25: the literal of `State.reset`, its registers and the groups of the table read off one by one. -/
theorem resetValues : Obligations.ResetValues := by
  refine ⟨by decide, rfl, rfl, rfl, fun _ => rfl, rfl, rfl, by decide, rfl, fun m => ?_⟩
  cases m <;> decide

/-- Settles O26: each part of the invariant by evaluation of the reset state. -/
theorem resetMeetsInvariant : Obligations.ResetMeetsInvariant :=
  ⟨Memory.reset_wf, Nat.zero_le memSize, rfl, rfl, rfl⟩

/-! ### What keeps each part of the invariant -/

theorem Effect.mem_wf {s t : State} {i : Instr} (h : Effect s i t) (hwf : Memory.wf s.mem = true) :
    Memory.wf t.mem = true := by
  obtain hmem | ⟨-, -, v, r, -, -, hmem⟩ | ⟨-, v, -, -, hmem⟩ := h.mem_cases <;> rw [hmem]
  · exact hwf
  · exact Memory.write_wf v (byte_lt_memSize _) hwf
  · exact Memory.write_wf v (byte_lt_memSize _) hwf

theorem Effect.fl_legal {s t : State} {i : Instr} (h : Effect s i t) (hfl : legalFl s.fl = true) :
    legalFl t.fl = true := by
  cases h with
  | compares a b v hv => obtain rfl | rfl | rfl := hv <;> rfl
  | calls v u ha hsp hret ht => exact (Effect.calls v u ha hsp hret ht).fl_eq nofun ▸ hfl
  | writesReg | dividesByZero | stores | emits | halts | nothing | pushes | pops | returns | jumps | passes =>
    exact hfl

theorem Effect.status_legal {s t : State} {i : Instr} (h : Effect s i t) (hs : s.status = .running) :
    legalStatus t.status = true := by
  obtain hstatus | hstatus := h.status_cases
  · rw [hstatus, hs]
    rfl
  · rw [hstatus]
    rfl

/-- The event of a division by zero is the first one, since it halts the core (R196). -/
theorem Effect.diag_legal {s t : State} {i : Instr} (h : Effect s i t) (hdiag : s.diag = []) : legalDiag t = true := by
  obtain ⟨-, ht⟩ | ⟨-, -, ht⟩ | ⟨hstatus, ht, -⟩ := h.status_diag_cases
  · simp [legalDiag, ht, hdiag]
  · simp [legalDiag, ht, hdiag]
  · simp [legalDiag, ht, hdiag, hstatus]

/-- A running core has an empty diagnostic channel. -/
theorem diag_eq_nil_of_legalDiag {s : State} (h : legalDiag s = true) (hs : s.status = .running) : s.diag = [] := by
  simpa [legalDiag, hs] using h

/-! ### The conditions a step raises -/

theorem fetch_error_raisable {s : State} {c : Condition} (hpc : s.pc ≤ memSize) (h : fetch s = .error c) :
    c.raisable = true := by
  obtain ⟨-, rfl⟩ | ⟨-, -, rfl⟩ | ⟨-, -, rfl⟩ := fetch_error_inv h
  · rw [fetch_addressOutOfRange hpc h]
    rfl
  · rfl
  · rfl

/-- A fetched instruction raises only conditions in the range of R191 to R197. -/
theorem Raised.raisable {s : State} {i : Instr} {c : Condition} (h : Raised s i c) (hsize : s.pc + i.size ≤ memSize) :
    c.raisable = true := by
  cases h with
  | invalidRegister hk =>
    have habove := List.find?_some hk
    simp only [decide_eq_true_eq] at habove
    exact decide_eq_true habove
  | callReturn r hret =>
    obtain ha | ⟨ha, -⟩ := (Raised.callReturn r hret).addressOutOfRange_cases hsize <;> rw [ha] <;> rfl
  | pushBelow | callBelow | popAbove | retAbove | int | iret => rfl

/-! ### The invariant -/

theorem Inv.enterFault {s : State} {c : Condition} (h : s.Inv) (hs : s.status = .running) (hc : c.raisable = true) :
    (s.enterFault c).Inv := by
  obtain ⟨hmem, hpc, hfl, -, hdiag⟩ := h
  have hnil := diag_eq_nil_of_legalDiag hdiag hs
  exact ⟨hmem, hpc, hfl, hc, by simp [legalDiag, hnil]⟩

/-- Settles O27: a step enters `Faulted` with a condition of the fetch or of the instruction, both in range, or has an
effect that keeps each part of the invariant. -/
theorem stepKeepsInvariant : Obligations.StepKeepsInvariant := by
  intro s t hinv h
  have ⟨hmem, hpc, hfl, _, hdiag⟩ := hinv
  obtain ⟨hs, hv, ⟨c, hf, rfl⟩ | ⟨i, hf, he⟩⟩ := step_inv h
  · exact Inv.enterFault hinv hs (fetch_error_raisable hpc hf)
  · obtain ⟨c, rfl, hraised⟩ | heffect := exec_inv he
    · obtain ⟨-, -, -, hsize⟩ := fetch_ok_row hv hf
      exact Inv.enterFault hinv hs (hraised.raisable hsize)
    · exact ⟨heffect.mem_wf hmem, step_pc_le hpc h, heffect.fl_legal hfl, heffect.status_legal hs,
        heffect.diag_legal (diag_eq_nil_of_legalDiag hdiag hs)⟩

end Sys2Proof.Machine
end


section
/-! The dispatcher (R80, R87): the step as the meaning of the decoded instruction, the cores that step, the pc that a
control-flow instruction sets, and O10, O15 and O17. -/

namespace Sys2Proof.Machine

/-! ### The step -/

/-- When memory holds, from the pc on, an opcode and the operand bytes its bits 7:6 call for, the fetch is the decoder
on them (R81 to R84). -/
theorem fetch_of_bytes {s : State} {i : Instr} {op : Byte} {operands : List Byte}
    (hlen : operands.length = opcodeCount op) (hfits : s.pc + operands.length < memSize)
    (hbytes : ∀ k, k ≤ operands.length → some (Memory.read s.mem (s.pc + k)) = (op :: operands)[k]?)
    (hi : decodeFields s.cfg op operands = some i) : fetch s = .ok i := by
  have hop : Memory.read s.mem s.pc = op := Option.some.inj (hbytes 0 (Nat.zero_le _))
  have hops : operandBytes s = operands := by
    refine List.ext_getElem? fun k => ?_
    rcases Nat.lt_or_ge k operands.length with hk | hk
    · rw [operandBytes, hop, List.getElem?_map, List.getElem?_range' (hlen ▸ hk), ← List.getElem?_cons_succ (a := op),
        ← hbytes (k + 1) hk, Option.map_some, Nat.one_mul, Nat.add_assoc, Nat.add_comm 1]
    · rw [List.getElem?_eq_none hk, List.getElem?_eq_none (by rw [operandBytes_length, hop, ← hlen]; exact hk)]
  rw [fetch_in (by rwa [hop, ← hlen]), hop, hops, hi]

/-- Settles O10: the bytes that decode to the instruction are those the fetch reads (`fetch_of_bytes`). -/
theorem stepRunsDecodedInstruction : Obligations.StepRunsDecodedInstruction := by
  intro s i op operands hs hv hdec hfits hbytes
  obtain ⟨op', operands', heq, hlen, hi⟩ := (decode_eq_ok_iff s.cfg _ [] i).1 hdec
  rw [List.append_nil] at heq
  cases heq
  exact step_of_fetch_ok hs hv (fetch_of_bytes hlen hfits hbytes hi)

/-- Settles O15: of the answers of `step_cases`, only the third is a refusal, and a running core with a valid
configuration has one of the last two. -/
theorem onlyInvalidConfigurationRefused : Obligations.OnlyInvalidConfigurationRefused := by
  refine ⟨fun s hs hv => ?_, fun s r => ⟨fun h => ?_, ?_⟩⟩
  · cases hf : fetch s with
    | error c => exact ⟨_, step_of_fetch_error hs hv hf⟩
    | ok i =>
      obtain ⟨t, ht⟩ := exec_next i s
      exact ⟨t, (step_of_fetch_ok hs hv hf).trans ht⟩
  · obtain ⟨-, e⟩ | ⟨c, -, e⟩ | ⟨hs, hv, e⟩ | ⟨-, -, c, -, e⟩ | ⟨-, -, i, -, e⟩ := step_cases s
      <;> rw [e] at h
    · cases h
    · cases h
    · cases h
      exact ⟨hs, hv, rfl⟩
    · cases h
    · obtain ⟨t, ht⟩ := exec_next i s
      rw [ht] at h
      cases h
  · rintro ⟨hs, hv, rfl⟩
    simp [step, hs, hv]

/-! ### The pc of a control-flow instruction -/

theorem setsPc_of_registerWriter {i : Instr} (h : i.mnemonic ∈ registerWriters) : i.setsPc = false := by
  have hall : ∀ m ∈ registerWriters, m.setsPc = false := by decide
  exact hall i.mnemonic h

/-- Where an instruction that sets the pc itself leaves it, when it raises nothing (R87). -/
theorem Effect.setsPc_cases {s t : State} {i : Instr} (h : Effect s i t) (hi : i.setsPc = true) :
    (∃ (a : Byte) (r : Fin 8), i.operands = [a] ∧ a.toNat = r.val ∧ i ≠ .int a ∧ t.pc = (t.getReg r).toNat)
    ∨ (i = .ret ∧ t.pc = (Memory.read s.mem s.sp.toNat).toNat)
    ∨ (i.mnemonic ∈ [Mnemonic.JEQ, .JNE, .JGT, .JGE, .JLT, .JLE, .INT, .IRET] ∧ t.pc = s.pc + i.size) := by
  cases h with
  | calls v u ha => exact .inl ⟨_, _, rfl, ha, nofun, rfl⟩
  | returns => exact .inr (.inl ⟨rfl, rfl⟩)
  | jumps hm hops ha =>
    refine .inl ⟨_, _, hops, ha, ?_, rfl⟩
    rintro rfl
    simp [Instr.mnemonic, conditionalJumps] at hm
  | passes hm => exact .inr (.inr ⟨by simpa [conditionalJumps, or_assoc] using hm, rfl⟩)
  | writesReg _ _ hm =>
    rw [setsPc_of_registerWriter hm] at hi
    cases hi
  | dividesByZero hd => obtain rfl | rfl := hd <;> cases hi
  | emits _ hp => obtain rfl | rfl := hp <;> cases hi
  | compares | stores | halts | nothing | pushes | pops => cases hi

/-- Settles O17: bit 4 is the instruction's column "sets PC" (`Config.valid_agrees`), and `Effect.setsPc_cases` are the
three ways. -/
theorem handlerSetPc : Obligations.HandlerSetPc := by
  intro i s t op operands _ hv henc hbit h ht
  obtain ⟨-, -, hsize⟩ := opcodeBitsGiveOperandCountAndSize s.cfg i op operands hv henc
  obtain ⟨hrow, rfl⟩ := (encode_eq_some_cons s.cfg i op operands).1 henc
  obtain ⟨-, hsets⟩ := Config.valid_agrees hv hrow
  obtain ⟨c, rfl, -⟩ | heffect := exec_inv h
  · exact absurd rfl (ht c)
  · rw [← hsize]
    exact heffect.setsPc_cases (hsets.symm.trans ((opcodeSetsPc_iff op).2 hbit))

end Sys2Proof.Machine
end


section
/-! The ALU instructions (R100 to R111): the operations on bytes as numbers and bit by bit, the common behaviour, and
O34 to O40. -/

namespace Sys2Proof.Machine

/-! ### The operations on bytes -/

theorem trunc8_ofNat (n : Nat) : trunc8 (n : Int) = BitVec.ofNat 8 n := BitVec.ofInt_natCast 8 n

theorem aluAdd_eq (x y : Byte) : aluAdd x y = BitVec.ofNat 8 ((x.toNat + y.toNat) % 256) := by
  refine BitVec.eq_of_toNat_eq ?_
  have h := trunc8_nat (x.toNat + y.toNat)
  push_cast at h
  rw [aluAdd, h, BitVec.toNat_ofNat, Nat.mod_mod]

theorem aluSub_eq (x y : Byte) : aluSub x y = BitVec.ofNat 8 ((x.toNat + 256 - y.toNat) % 256) := by
  refine BitVec.eq_of_toNat_eq ?_
  have h := trunc8_int (x.toNat - y.toNat)
  have hy := y.isLt
  rw [aluSub, BitVec.toNat_ofNat]
  omega

theorem aluMul_eq (x y : Byte) : aluMul x y = BitVec.ofNat 8 ((x.toNat * y.toNat) % 256) := by
  refine BitVec.eq_of_toNat_eq ?_
  have h := trunc8_nat (x.toNat * y.toNat)
  push_cast at h
  rw [aluMul, h, BitVec.toNat_ofNat, Nat.mod_mod]

/-- A quotient of bytes is a byte. -/
theorem aluDiv_toNat (x y : Byte) : (aluDiv x y).toNat = x.toNat / y.toNat := by
  rw [aluDiv, trunc8_nat, Nat.mod_eq_of_lt ((Nat.div_le_self _ _).trans_lt x.isLt)]

/-- A remainder of bytes is a byte. -/
theorem aluMod_toNat (x y : Byte) : (aluMod x y).toNat = x.toNat % y.toNat := by
  rw [aluMod, trunc8_nat, Nat.mod_eq_of_lt ((Nat.mod_le _ _).trans_lt x.isLt)]

theorem aluShl_getLsbD (x y : Byte) {k : Nat} (hk : k < 8) :
    (aluShl x y).getLsbD k = (decide (y.toNat ≤ k) && x.getLsbD (k - y.toNat)) := by
  rw [aluShl, trunc8_ofNat, BitVec.getLsbD_ofNat, decide_eq_true hk, Bool.true_and, Nat.testBit_mul_two_pow]
  rfl

theorem aluShr_getLsbD (x y : Byte) {k : Nat} (hk : k < 8) : (aluShr x y).getLsbD k = x.getLsbD (k + y.toNat) := by
  rw [aluShr, trunc8_ofNat, BitVec.getLsbD_ofNat, decide_eq_true hk, Bool.true_and, Nat.testBit_div_two_pow]
  rfl

/-- An amount of 8 or more shifts every bit out (D10). -/
theorem aluShl_eq_zero (x : Byte) {y : Byte} (h : 8 ≤ y.toNat) : aluShl x y = 0 := by
  refine BitVec.eq_of_getLsbD_eq fun k hk => ?_
  have hlt : ¬ y.toNat ≤ k := by omega
  simp [aluShl_getLsbD x y hk, hlt]

theorem aluShr_eq_zero (x : Byte) {y : Byte} (h : 8 ≤ y.toNat) : aluShr x y = 0 := by
  refine BitVec.eq_of_getLsbD_eq fun k hk => ?_
  have hge : 8 ≤ k + y.toNat := h.trans (Nat.le_add_left _ k)
  simp [aluShr_getLsbD x y hk, BitVec.getLsbD_of_ge x _ hge]

/-! ### The common behaviour -/

/-- What O34 says of the instruction `mk` with the exact result `g` (R100). -/
def AluCommon (mk : Byte → Byte → Instr) (g : Int → Int → Int) : Prop :=
  ∀ s : State,
    (∀ a b : Byte, 7 < a.toNat → Raises (mk a b) s (.invalidRegister a))
    ∧ (∀ (ra : Fin 8) (b : Byte), 7 < b.toNat → Raises (mk (regOperand ra) b) s (.invalidRegister b))
    ∧ (∀ ra rb : Fin 8, ((mk = Instr.div ∨ mk = Instr.mod) → s.getReg rb ≠ 0) →
        ∃ v : Byte, (v.toNat : Int) = g (s.getReg ra).toNat (s.getReg rb).toNat % 256
          ∧ WritesRegister (mk (regOperand ra) (regOperand rb)) s ra v 3)

/-- The register checks of an instruction with two register operands, `a` before `b` (R100, R199 item 5). -/
theorem raises_invalidRegister_pair {mk : Byte → Byte → Instr} (hops : ∀ a b, (mk a b).regOperands = [a, b])
    (s : State) :
    (∀ a b : Byte, 7 < a.toNat → Raises (mk a b) s (.invalidRegister a))
    ∧ (∀ (ra : Fin 8) (b : Byte), 7 < b.toNat → Raises (mk (regOperand ra) b) s (.invalidRegister b)) := by
  refine ⟨fun a b ha => exec_invalid s ?_, fun ra b hb => exec_invalid s ?_⟩
  · simp [firstInvalid, hops, ha]
  · have hra : ¬ 7 < (regOperand ra).toNat := by
      rw [regOperand_toNat]
      omega
    simp [firstInvalid, hops, hra, hb]

theorem aluCommon_combineRegs {mk : Byte → Byte → Instr} {f : Byte → Byte → Byte} {g : Int → Int → Int}
    (hexec : ∀ a b s, exec (mk a b) s = retire 3 s (combineRegs f a b s))
    (hops : ∀ a b, (mk a b).regOperands = [a, b]) (hf : ∀ x y : Byte, ((f x y).toNat : Int) = g x.toNat y.toNat % 256) :
    AluCommon mk g := by
  intro s
  obtain ⟨hfirst, hsecond⟩ := raises_invalidRegister_pair hops s
  exact ⟨hfirst, hsecond, fun ra rb _ => ⟨_, hf _ _, combineRegs_writes (hexec _ _ s)⟩⟩

theorem aluCommon_divideRegs {mk : Byte → Byte → Instr} {f : Byte → Byte → Byte} {g : Int → Int → Int}
    (hexec : ∀ a b s, exec (mk a b) s = retire 3 s (divideRegs f a b s))
    (hops : ∀ a b, (mk a b).regOperands = [a, b]) (hf : ∀ x y : Byte, ((f x y).toNat : Int) = g x.toNat y.toNat % 256)
    (hmk : mk = Instr.div ∨ mk = Instr.mod) : AluCommon mk g := by
  intro s
  obtain ⟨hfirst, hsecond⟩ := raises_invalidRegister_pair hops s
  exact ⟨hfirst, hsecond, fun ra rb h0 => ⟨_, hf _ _, divideRegs_writes (hexec _ _ s) (h0 hmk)⟩⟩

/-- A byte is its own residue. -/
theorem byte_eq_emod (v : Byte) : (v.toNat : Int) = (v.toNat : Int) % 256 := by
  have h := v.isLt
  omega

/-- Settles O34: the eight rows of `combineRegs` and the two of `divideRegs`, each with its operation as a number. -/
theorem aluCommonBehaviour : Obligations.AluCommonBehaviour := by
  intro row hrow
  change AluCommon row.1 row.2
  simp only [List.mem_cons, List.not_mem_nil, or_false] at hrow
  obtain rfl | rfl | rfl | rfl | rfl | rfl | rfl | rfl | rfl | rfl := hrow
  · exact aluCommon_combineRegs (f := aluAdd) (fun _ _ _ => rfl) (fun _ _ => rfl) fun _ _ => trunc8_int _
  · exact aluCommon_combineRegs (f := aluSub) (fun _ _ _ => rfl) (fun _ _ => rfl) fun _ _ => trunc8_int _
  · exact aluCommon_combineRegs (f := aluMul) (fun _ _ _ => rfl) (fun _ _ => rfl) fun _ _ => trunc8_int _
  · exact aluCommon_divideRegs (f := aluDiv) (fun _ _ _ => rfl) (fun _ _ => rfl) (fun _ _ => trunc8_int _) (.inl rfl)
  · exact aluCommon_divideRegs (f := aluMod) (fun _ _ _ => rfl) (fun _ _ => rfl) (fun _ _ => trunc8_int _) (.inr rfl)
  · exact aluCommon_combineRegs (f := aluAnd) (fun _ _ _ => rfl) (fun _ _ => rfl) fun x y => byte_eq_emod (x &&& y)
  · exact aluCommon_combineRegs (f := aluOr) (fun _ _ _ => rfl) (fun _ _ => rfl) fun x y => byte_eq_emod (x ||| y)
  · exact aluCommon_combineRegs (f := aluXor) (fun _ _ _ => rfl) (fun _ _ => rfl) fun x y => byte_eq_emod (x ^^^ y)
  · exact aluCommon_combineRegs (f := aluShl) (fun _ _ _ => rfl) (fun _ _ => rfl) fun _ _ => trunc8_int _
  · exact aluCommon_combineRegs (f := aluShr) (fun _ _ _ => rfl) (fun _ _ => rfl) fun _ _ => trunc8_int _

/-! ### The results -/

/-- Settles O35: the three instructions write what `aluAdd_eq`, `aluSub_eq` and `aluMul_eq` say. -/
theorem addSubMulResults : Obligations.AddSubMulResults := by
  intro ra rb s
  rw [← aluAdd_eq, ← aluSub_eq, ← aluMul_eq]
  exact ⟨combineRegs_writes rfl, combineRegs_writes rfl, combineRegs_writes rfl⟩

/-- Settles O36: the quotient is `aluDiv`'s and the remainder `aluMod`'s. -/
theorem divModResults : Obligations.DivModResults := by
  intro ra rb s h0
  have hpos : 0 < (s.getReg rb).toNat := Nat.pos_of_ne_zero fun h => h0 (BitVec.eq_of_toNat_eq h)
  refine ⟨aluDiv (s.getReg ra) (s.getReg rb), aluMod (s.getReg ra) (s.getReg rb), ?_, ?_, divideRegs_writes rfl h0,
    divideRegs_writes rfl h0⟩
  · rw [aluDiv_toNat, aluMod_toNat, Nat.div_add_mod']
  · rw [aluMod_toNat]
    exact Nat.mod_lt _ hpos

theorem divideRegs_halts {i : Instr} {f : Byte → Byte → Byte} {s : State} {ra rb : Fin 8}
    (h : exec i s = retire 3 s (divideRegs f (regOperand ra) (regOperand rb) s)) (h0 : s.getReg rb = 0) :
    exec i s = .next (s.divisionByZero.setPc (s.pc + 3)) := by
  rw [h, divideRegs_zero f s (checkRegs_regOperand ra rb) h0, retire_ok, State.divisionByZero_pc]

/-- Settles O37: both instructions answer the state of `divideRegs_halts`. -/
theorem divisionByZeroHalts : Obligations.DivisionByZeroHalts := by
  intro ra rb s h0 i hi
  have hexec : exec i s = .next (s.divisionByZero.setPc (s.pc + 3)) := by
    obtain rfl | rfl : i = .div (regOperand ra) (regOperand rb) ∨ i = .mod (regOperand ra) (regOperand rb) := by
      simpa using hi
    · exact divideRegs_halts (f := aluDiv) rfl h0
    · exact divideRegs_halts (f := aluMod) rfl h0
  exact ⟨_, hexec, rfl, rfl, rfl, fun _ => rfl, rfl, fun _ => rfl, rfl, rfl⟩

/-- Settles O38: the three operations are those of bit vectors. -/
theorem logicResults : Obligations.LogicResults := fun _ _ _ =>
  ⟨⟨_, fun _ => BitVec.getLsbD_and, combineRegs_writes rfl⟩, ⟨_, fun _ => BitVec.getLsbD_or, combineRegs_writes rfl⟩,
    ⟨_, fun _ => BitVec.getLsbD_xor, combineRegs_writes rfl⟩⟩

/-- Settles O39: the bits by `aluShl_getLsbD` and `aluShr_getLsbD`. -/
theorem shiftResults : Obligations.ShiftResults := fun _ _ _ =>
  ⟨⟨_, fun _ => aluShl_getLsbD _ _, aluShl_eq_zero _, combineRegs_writes rfl⟩,
    ⟨_, fun _ => aluShr_getLsbD _ _, aluShr_eq_zero _, combineRegs_writes rfl⟩⟩

/-! ### CMP -/

theorem compareFlags_of_lt {x y : Byte} (h : x.toNat < y.toNat) : compareFlags x y = flL := if_pos h

theorem compareFlags_of_gt {x y : Byte} (h : y.toNat < x.toNat) : compareFlags x y = flG := by
  rw [compareFlags, if_neg (Nat.lt_asymm h), if_pos h]

theorem compareFlags_of_eq {x y : Byte} (h : x.toNat = y.toNat) : compareFlags x y = flE := by
  rw [compareFlags, if_neg h.not_lt, if_neg h.not_gt]

theorem exec_cmp (ra rb : Fin 8) (s : State) :
    exec (.cmp (regOperand ra) (regOperand rb)) s =
      .next ((s.setFl (compareFlags (s.getReg ra) (s.getReg rb))).setPc (s.pc + 3)) := by
  simp [exec, execCmp, compareRegs]

/-- Settles O40: the state is `exec_cmp`'s and its flags those of the three cases of the unsigned order. -/
theorem compareSetsFlags : Obligations.CompareSetsFlags := by
  intro s
  obtain ⟨hfirst, hsecond⟩ := raises_invalidRegister_pair (mk := .cmp) (fun _ _ => rfl) s
  exact ⟨fun ra rb => ⟨_, exec_cmp ra rb s, compareFlags_of_lt, compareFlags_of_gt, compareFlags_of_eq, fun _ => rfl,
    fun _ => rfl, rfl, rfl, rfl, rfl, rfl⟩, hfirst, hsecond⟩

end Sys2Proof.Machine
end


section
/-! Memory, output and the optional instructions (R121 to R124, R176 to R180), and O42, O43, O44 and O57. -/

namespace Sys2Proof.Machine

/-! ### LD and ST -/

/-- Settles O42: LD answers `loadReg_ok`'s state. -/
theorem loadFromMemory : Obligations.LoadFromMemory := fun ra rb s =>
  writesRegister_of_retire (by rw [exec, execLd, loadReg_ok s (checkRegs_regOperand ra rb)])

theorem exec_st (ra rb : Fin 8) (s : State) :
    exec (.st (regOperand ra) (regOperand rb)) s =
      .next ((s.setMem (Memory.write s.mem (s.getReg ra).toNat (s.getReg rb))).setPc (s.pc + 3)) := by
  rw [exec, execSt, storeReg_ok s (checkRegs_regOperand ra rb), retire_ok, State.setMem_pc]

/-- Settles O43: ST answers `exec_st`'s state, whose memory has the one write. -/
theorem storeToMemory : Obligations.StoreToMemory := by
  intro ra rb s
  obtain ⟨hmem, hreg, hothers⟩ := State.setMem_write_frame s (s.getReg ra).toNat (s.getReg rb)
  exact ⟨_, exec_st ra rb s, Memory.read_write_same s.mem _ _, hmem, hreg, hothers, rfl⟩

/-! ### The decimal numeral -/

theorem digit_toNat {n : Nat} (h : n < 10) : (digit n).toNat = 0x30 + n := by
  rw [digit, BitVec.toNat_ofNat]
  omega

theorem digit_range {n : Nat} (h : n < 10) : 0x30 ≤ (digit n).toNat ∧ (digit n).toNat ≤ 0x39 := by
  rw [digit_toNat h]
  omega

theorem digit_ne_zeroChar {n : Nat} (h : n < 10) (h0 : n ≠ 0) : digit n ≠ 0x30 := by
  intro e
  have hn := digit_toNat h
  rw [e, show (0x30 : Byte).toNat = 0x30 from rfl] at hn
  omega

/-- The value of a string of digit characters, most significant first (R123). -/
def numeralValue (ds : List Byte) : Nat := ds.foldl (fun n d => 10 * n + (d.toNat - 0x30)) 0

/-- The numeral of a byte: one, two or three digits, of which the first is no zero unless it is the only one. -/
theorem decimal_cases (v : Byte) :
    (∃ n, n < 10 ∧ v.toNat = n ∧ decimal v = [digit n])
    ∨ (∃ m n, m < 10 ∧ m ≠ 0 ∧ n < 10 ∧ v.toNat = 10 * m + n ∧ decimal v = [digit m, digit n])
    ∨ (∃ l m n, l < 10 ∧ l ≠ 0 ∧ m < 10 ∧ n < 10 ∧ v.toNat = 10 * (10 * l + m) + n
        ∧ decimal v = [digit l, digit m, digit n]) := by
  have hv := v.isLt
  by_cases h10 : v.toNat < 10
  · exact .inl ⟨_, h10, rfl, by simp [decimal, h10]⟩
  · by_cases h100 : v.toNat < 100
    · exact .inr (.inl ⟨v.toNat / 10, v.toNat % 10, by omega, by omega, by omega, by omega,
        by simp [decimal, h10, h100]⟩)
    · exact .inr (.inr ⟨v.toNat / 100, v.toNat / 10 % 10, v.toNat % 10, by omega, by omega, by omega, by omega,
        by omega, by simp [decimal, h10, h100]⟩)

/-- The numeral is made of digits, has no leading zero and has the byte as its value (R123). -/
theorem decimal_spec (v : Byte) :
    decimal v ≠ [] ∧ (∀ d ∈ decimal v, 0x30 ≤ d.toNat ∧ d.toNat ≤ 0x39)
      ∧ ((decimal v).head? = some 0x30 → decimal v = [0x30]) ∧ numeralValue (decimal v) = v.toNat := by
  obtain ⟨n, hn, hv, hd⟩ | ⟨m, n, hm, hm0, hn, hv, hd⟩ | ⟨l, m, n, hl, hl0, hm, hn, hv, hd⟩ := decimal_cases v <;>
    rw [hd, hv]
  · refine ⟨List.cons_ne_nil _ _, by simpa using digit_range hn, fun h => ?_, ?_⟩
    · rw [Option.some.inj h]
    · simp [numeralValue, digit_toNat hn]
  · refine ⟨List.cons_ne_nil _ _, by simpa using ⟨digit_range hm, digit_range hn⟩,
      fun h => absurd (Option.some.inj h) (digit_ne_zeroChar hm hm0), ?_⟩
    simp [numeralValue, digit_toNat hm, digit_toNat hn]
  · refine ⟨List.cons_ne_nil _ _, by simpa using ⟨digit_range hl, digit_range hm, digit_range hn⟩,
      fun h => absurd (Option.some.inj h) (digit_ne_zeroChar hl hl0), ?_⟩
    simp [numeralValue, digit_toNat hl, digit_toNat hm, digit_toNat hn]

/-! ### PRN and PRA -/

/-- The shape of PRN and PRA: the characters are appended, and the pc advances. -/
theorem exec_of_emitReg {i : Instr} {f : Byte → List Byte} {s : State} {r : Fin 8}
    (h : exec i s = retire 2 s (emitReg f (regOperand r) s)) :
    exec i s = .next ((s.emit (f (s.getReg r))).setPc (s.pc + 2)) := by
  simp [h, emitReg]

/-- Settles O44: both instructions append as `exec_of_emitReg` says, PRN the numeral of `decimal_spec`. -/
theorem outputInstructions : Obligations.OutputInstructions := by
  intro r s
  obtain ⟨hne, hdigits, hlead, hvalue⟩ := decimal_spec (s.getReg r)
  have hprn := exec_of_emitReg (i := .prn (regOperand r)) (f := fun v => decimal v ++ [newline]) (s := s) rfl
  have hpra := exec_of_emitReg (i := .pra (regOperand r)) (f := fun v => [v]) (s := s) rfl
  exact ⟨⟨_, decimal (s.getReg r), hprn, (List.append_assoc _ _ _).symm, hne, hdigits, hlead, hvalue, fun _ => rfl,
    fun _ => rfl, rfl, rfl, rfl, rfl, rfl⟩, _, hpra, rfl, fun _ => rfl, fun _ => rfl, rfl, rfl, rfl, rfl, rfl⟩

/-! ### The optional instructions -/

theorem trunc8_add_one (v : Byte) : trunc8 (v.toNat + 1) = BitVec.ofNat 8 ((v.toNat + 1) % 256) := aluAdd_eq v 1

theorem trunc8_sub_one (v : Byte) : trunc8 (v.toNat - 1) = BitVec.ofNat 8 ((v.toNat + 255) % 256) := aluSub_eq v 1

/-- NOT subtracts the byte from 255 (R178). -/
theorem allOnes_xor_eq (v : Byte) : 0xFF ^^^ v = BitVec.ofNat 8 (255 - v.toNat) := by
  refine BitVec.eq_of_toNat_eq ?_
  have hv := v.isLt
  rw [show (0xFF : Byte) = BitVec.allOnes 8 from rfl, BitVec.allOnes_xor, BitVec.toNat_not, BitVec.toNat_ofNat]
  omega

/-- Setting the pc is all that such an instruction does. -/
theorem onlyMovesPc_of_setPc {i : Instr} {s : State} {n : Nat} (h : exec i s = .next (s.setPc n)) :
    OnlyMovesPc i s n :=
  ⟨_, h, rfl, fun _ => rfl, fun _ => rfl, rfl, rfl, rfl, rfl, rfl⟩

theorem exec_nop (s : State) : exec .nop s = .next (s.setPc (s.pc + 1)) := rfl

/-- Settles O57: the four instructions on a register are of the shape of `updateReg_writes`, and NOP is `exec_nop`. -/
theorem extensionResults : Obligations.ExtensionResults := by
  intro r imm s
  rw [← trunc8_add_one, ← trunc8_sub_one, ← allOnes_xor_eq, ← aluAdd_eq]
  exact ⟨updateReg_writes (f := fun v => trunc8 (v.toNat + 1)) rfl,
    updateReg_writes (f := fun v => trunc8 (v.toNat - 1)) rfl, updateReg_writes (f := fun v => 0xFF ^^^ v) rfl,
    updateReg_writes (f := fun v => aluAdd v imm) rfl, onlyMovesPc_of_setPc (exec_nop s)⟩

end Sys2Proof.Machine
end


section
/-! The stack (R136 to R140): the states that PUSH, POP, CALL and RET leave, when they raise, and O46 to O51. -/

namespace Sys2Proof.Machine

/-! ### `SP` as register 7 -/

theorem getReg_setSp_eq (s : State) (q : Fin 8) (v : Byte) :
    (s.setSp v).getReg q = if q = 7 then v else s.getReg q :=
  (State.getReg_setSp s q v).trans (if_congr eq_comm rfl rfl)

theorem sp_setReg_other (s : State) {r : Fin 8} (v : Byte) (h : r ≠ 7) : (s.setReg r v).sp = s.sp :=
  State.getReg_setReg_other s v h

theorem sp_setReg_seven (s : State) (v : Byte) : (s.setReg 7 v).sp = v := State.getReg_setReg_same s 7 v

theorem setSp_registersKeptBut (s : State) (v : Byte) : RegistersKeptBut [7] s (s.setSp v) := fun q hq => by
  rw [getReg_setSp_eq, if_neg (mt List.mem_singleton.2 hq)]

theorem setReg_setSp_registersKeptBut (s : State) (r : Fin 8) (v w : Byte) :
    RegistersKeptBut [r, 7] s ((s.setReg r v).setSp w) := by
  intro q hq
  obtain ⟨hr, h7⟩ : q ≠ r ∧ q ≠ 7 := by simpa using hq
  rw [getReg_setSp_eq, if_neg h7, State.getReg_setReg_other s v hr.symm]

theorem setSp_sub_one_toNat {s : State} (h : s.sp ≠ 0) : (s.setSp (s.sp - 1)).sp.toNat = s.sp.toNat - 1 := by
  rw [State.sp_setSp, toNat_sub_one h]

/-! ### PUSH -/

/-- PUSH above the bottom: the register is read after the decrement (R138, D25). -/
theorem exec_push (r : Fin 8) {s : State} (h : s.sp ≠ 0) :
    exec (.push (regOperand r)) s =
      .next (((s.setSp (s.sp - 1)).setMem
        (Memory.write s.mem (s.sp - 1).toNat ((s.setSp (s.sp - 1)).getReg r))).setPc (s.pc + 2)) := by
  rw [exec, execPush, pushReg, checkReg_regOperand, ok_bind, decSp_pos h, ok_bind, memWrite_byte, retire_ok,
    State.sp_setSp]
  rfl

theorem exec_push_zero (r : Fin 8) {s : State} (h : s.sp = 0) :
    exec (.push (regOperand r)) s = .next (s.enterFault (.addressOutOfRange (-1))) := by
  rw [exec, execPush, pushReg, checkReg_regOperand, ok_bind, decSp_zero h, error_bind, retire_error]

/-- Settles O46: the state of `exec_push`, with the decremented `SP` as a number. -/
theorem pushStores : Obligations.PushStores := by
  intro r s hsp
  have haddr := toNat_sub_one hsp
  refine ⟨_, exec_push r hsp, setSp_sub_one_toNat hsp, ?_, haddr ▸ memoryKeptBut_of_mem_eq_write rfl,
    setSp_registersKeptBut s (s.sp - 1), ⟨rfl, rfl, rfl, rfl, rfl⟩, rfl⟩
  rw [State.setPc_mem, State.setMem_mem, ← haddr, Memory.read_write_same, getReg_setSp_eq, State.setPc_sp,
    State.setMem_sp, State.sp_setSp]

/-! ### POP -/

/-- POP, when the incremented value is a byte: the increment applies to `SP` as the register write leaves it (R139). -/
theorem exec_pop (r : Fin 8) {s : State} (h : (s.setReg r (Memory.read s.mem s.sp.toNat)).sp ≠ 0xFF) :
    exec (.pop (regOperand r)) s =
      .next (((s.setReg r (Memory.read s.mem s.sp.toNat)).setSp
        ((s.setReg r (Memory.read s.mem s.sp.toNat)).sp + 1)).setPc (s.pc + 2)) := by
  rw [exec, execPop, popReg, checkReg_regOperand, ok_bind, memRead_byte, ok_bind, incSp_below h, retire_ok]
  rfl

theorem exec_pop_top (r : Fin 8) {s : State} (h : (s.setReg r (Memory.read s.mem s.sp.toNat)).sp = 0xFF) :
    exec (.pop (regOperand r)) s = .next (s.enterFault (.addressOutOfRange 0x100)) := by
  rw [exec, execPop, popReg, checkReg_regOperand, ok_bind, memRead_byte, ok_bind, incSp_top h, retire_error]

/-- Settles O47: the state of `exec_pop`, for R7 and for the other registers. -/
theorem popLoads : Obligations.PopLoads := by
  refine ⟨fun r s hr hsp => ?_, fun s hv => ?_⟩
  · have hkept := sp_setReg_other s (Memory.read s.mem s.sp.toNat) hr
    refine ⟨_, exec_pop r (hkept.trans_ne hsp), ?_, ?_, setReg_setSp_registersKeptBut s r _ _, fun _ => rfl,
      ⟨rfl, rfl, rfl, rfl, rfl⟩, rfl⟩
    · rw [State.setPc_getReg, getReg_setSp_eq, if_neg hr, State.getReg_setReg_same]
    · rw [State.setPc_sp, State.sp_setSp, hkept, toNat_add_one hsp]
  · have hpopped := sp_setReg_seven s (Memory.read s.mem s.sp.toNat)
    refine ⟨_, exec_pop 7 (hpopped.trans_ne hv), ?_, fun q hq => ?_, fun _ => rfl, ⟨rfl, rfl, rfl, rfl, rfl⟩, rfl⟩
    · rw [State.setPc_sp, State.sp_setSp, hpopped, toNat_add_one hv]
    · exact setReg_setSp_registersKeptBut s 7 _ _ q (by simpa using hq)

/-! ### PUSH, then POP -/

theorem OthersKept.trans {s t u : State} (h : OthersKept s t) (h' : OthersKept t u) : OthersKept s u := by
  obtain ⟨hfl, hstatus, hout, hdiag, hcfg⟩ := h
  obtain ⟨hfl', hstatus', hout', hdiag', hcfg'⟩ := h'
  exact ⟨hfl'.trans hfl, hstatus'.trans hstatus, hout'.trans hout, hdiag'.trans hdiag, hcfg'.trans hcfg⟩

theorem MemoryKeptBut.trans_kept {a : Nat} {s t u : State} (h : MemoryKeptBut a s t) (h' : MemoryKept t u) :
    MemoryKeptBut a s u := fun b hb => (h' b).trans (h b hb)

/-- Settles O49: `pushStores`, and then `popLoads` on the state it leaves, whose byte at `SP` is the one pushed. -/
theorem pushPopRestores : Obligations.PushPopRestores := by
  intro r q s hsp hrq
  obtain ⟨t, hpush, htsp, htread, htmem, htreg, htothers, -⟩ := pushStores r s hsp
  rw [← htsp] at htread
  have hpos : s.sp.toNat ≠ 0 := fun h => hsp (BitVec.eq_of_toNat_eq h)
  have hbelow : t.sp ≠ 0xFF := by
    have hlt := s.sp.isLt
    intro h
    rw [h, show (0xFF : Byte).toNat = 255 from rfl] at htsp
    omega
  obtain ⟨popOther, popSp⟩ := popLoads
  by_cases hq : q = 7
  · obtain rfl := hq
    obtain rfl : r = 7 := hrq.resolve_left fun h => h rfl
    rw [if_pos rfl] at htread
    obtain ⟨u, hpop, husp, hureg, humem, huothers, -⟩ := popSp t (htread.trans_ne hbelow)
    have hrestored : u.sp = s.sp := BitVec.eq_of_toNat_eq (by rw [husp, htread, htsp]; omega)
    exact ⟨t, u, hpush, hpop, hrestored, fun h => absurd rfl h, fun _ h => absurd rfl h,
      fun p hp => (hureg p hp).trans (htreg p hp), htothers.trans huothers, htmem.trans_kept humem⟩
  · obtain ⟨u, hpop, huq, husp, hureg, humem, huothers, -⟩ := popOther q t hq hbelow
    have hrestored : u.sp = s.sp := BitVec.eq_of_toNat_eq (by rw [husp, htsp]; omega)
    refine ⟨t, u, hpush, hpop, hrestored, fun hr => ?_, fun hr _ => ?_, fun p hp => ?_, htothers.trans huothers,
      htmem.trans_kept humem⟩
    · rw [huq, htread, if_neg hr]
    · rw [huq, htread, if_pos hr, htsp]
    · by_cases hp7 : p = 7
      · exact hp7 ▸ hrestored
      · have hpq : p ≠ q := mt List.mem_singleton.2 hp
        exact (hureg p (by simp [hpq, hp7])).trans (htreg p (mt List.mem_singleton.1 hp7))

/-! ### CALL and RET -/

theorem exec_call_zero (r : Fin 8) {s : State} (hret : s.pc + 2 < 256) (h : s.sp = 0) :
    exec (.call (regOperand r)) s = .next (s.enterFault (.addressOutOfRange (-1))) := by
  have hcheck : ¬ 0xFF < s.pc + 2 := by omega
  simp [exec, execCall, callReg, hcheck, push_zero _ h]

/-- A CALL whose return address is no byte raises before it looks at `SP` (D7, D9). -/
theorem exec_call_return_out (r : Fin 8) {s : State} (hret : 256 ≤ s.pc + 2) :
    exec (.call (regOperand r)) s = .next (s.enterFault (.addressOutOfRange ((s.pc + 2 : Nat) : Int))) := by
  have hcheck : 0xFF < s.pc + 2 := by omega
  simp [exec, execCall, callReg, hcheck]

theorem exec_ret_top {s : State} (h : s.sp = 0xFF) :
    exec .ret s = .next (s.enterFault (.addressOutOfRange 0x100)) := by
  rw [exec, execRet, returnFromCall, pop_top h, error_bind, settle_error]

/-- Settles O48: the five raising cases, each by its equation. -/
theorem stackBoundsRaise : Obligations.StackBoundsRaise :=
  ⟨fun r _ hsp => exec_push_zero r hsp, fun r _ hsp hret => exec_call_zero r hret hsp,
    fun r s hr hsp => exec_pop_top r ((sp_setReg_other s _ hr).trans hsp),
    fun s hv => exec_pop_top 7 ((sp_setReg_seven s _).trans hv), fun _ hsp => exec_ret_top hsp⟩

/-- Settles O50: a push of the return address, then the register as the push leaves it (`exec_call`). -/
theorem callPushesReturnAddress : Obligations.CallPushesReturnAddress := by
  refine ⟨fun r s hsp hret => ?_, fun r s hret => exec_call_return_out r hret⟩
  have haddr := toNat_sub_one hsp
  refine ⟨_, exec_call r hret (push_pos _ hsp), setSp_sub_one_toNat hsp, ?_, ?_,
    haddr ▸ memoryKeptBut_of_mem_eq_write rfl, setSp_registersKeptBut s (s.sp - 1), ⟨rfl, rfl, rfl, rfl, rfl⟩⟩
  · rw [State.setPc_mem, State.setMem_mem, ← haddr, Memory.read_write_same, BitVec.toNat_ofNat, Nat.mod_eq_of_lt hret]
  · rw [State.setPc_pc, State.setMem_getReg, getReg_setSp_eq, apply_ite BitVec.toNat, haddr]

/-- Settles O51: the state of `exec_ret`. -/
theorem returnPopsPc : Obligations.ReturnPopsPc := by
  intro s hsp
  refine ⟨_, exec_ret hsp, rfl, ?_, setSp_registersKeptBut s (s.sp + 1), fun _ => rfl, ⟨rfl, rfl, rfl, rfl, rfl⟩⟩
  rw [State.setPc_sp, State.sp_setSp, toNat_add_one hsp]

end Sys2Proof.Machine
end


section
/-! The jumps and the reserved instructions (R153 to R162), and O53 to O56. -/

namespace Sys2Proof.Machine

/-! ### The jumps -/

/-- Settles O53: JMP is the jump that is always taken. -/
theorem jumpSetsPc : Obligations.JumpSetsPc := fun _ _ => jumpIf_onlyMovesPc (taken := true) rfl

/-- The shape of the jumps, with the test said as a proposition. -/
theorem jumpIf_onlyMovesPc_of_iff {i : Instr} {s : State} {r : Fin 8} {taken : Bool} {p : Prop} [Decidable p]
    (h : exec i s = settle s (jumpIf taken (regOperand r) s)) (hp : taken = true ↔ p) :
    OnlyMovesPc i s (if p then (s.getReg r).toNat else s.pc + 2) :=
  if_congr hp rfl rfl ▸ jumpIf_onlyMovesPc h

theorem condNe_iff (s : State) : s.condNe = true ↔ ¬ s.flagE = true := by simp [State.condNe]

theorem condGe_iff (s : State) : s.condGe = true ↔ s.flagG = true ∨ s.flagE = true := by simp [State.condGe]

theorem condLe_iff (s : State) : s.condLe = true ↔ s.flagL = true ∨ s.flagE = true := by simp [State.condLe]

/-- Settles O54: each jump passes to `jumpIf` the test of R160 on the bits of `FL`. -/
theorem conditionalJumps_onlyMovePc : Obligations.ConditionalJumps := by
  rintro r s _ _ _ rfl rfl rfl
  have hne := jumpIf_onlyMovesPc_of_iff (i := .jne (regOperand r)) rfl (condNe_iff s)
  rw [ite_not] at hne
  exact ⟨jumpIf_onlyMovesPc (taken := s.condEq) rfl, hne, jumpIf_onlyMovesPc (taken := s.condGt) rfl,
    jumpIf_onlyMovesPc_of_iff rfl (condGe_iff s), jumpIf_onlyMovesPc (taken := s.condLt) rfl,
    jumpIf_onlyMovesPc_of_iff rfl (condLe_iff s)⟩

/-! ### CMP, then a jump -/

/-- The three flags that a comparison leaves are the three cases of the unsigned order (R111). -/
theorem compareFlags_bits (x y : Byte) :
    ((compareFlags x y).getLsbD 2 = true ↔ x.toNat < y.toNat)
    ∧ ((compareFlags x y).getLsbD 1 = true ↔ x.toNat > y.toNat)
    ∧ ((compareFlags x y).getLsbD 0 = true ↔ x.toNat = y.toNat) := by
  obtain h | h | h := lt_trichotomy x.toNat y.toNat
  · rw [compareFlags_of_lt h]
    exact ⟨iff_of_true rfl h, iff_of_false nofun h.not_gt, iff_of_false nofun h.ne⟩
  · rw [compareFlags_of_eq h]
    exact ⟨iff_of_false nofun h.not_lt, iff_of_false nofun h.not_gt, iff_of_true rfl h⟩
  · rw [compareFlags_of_gt h]
    exact ⟨iff_of_false nofun h.not_gt, iff_of_true rfl h, iff_of_false nofun h.ne'⟩

/-- Settles O55: after `exec_cmp` the flags are those of `compareFlags_bits`, and the jump starts 3 bytes further on. -/
theorem compareThenJump : Obligations.CompareThenJump := by
  intro ra rb r s
  obtain ⟨hL, hG, hE⟩ := compareFlags_bits (s.getReg ra) (s.getReg rb)
  have hEq : (compareFlags (s.getReg ra) (s.getReg rb)).getLsbD 0 = true ↔ s.getReg ra = s.getReg rb :=
    hE.trans BitVec.toNat_inj
  refine ⟨_, exec_cmp ra rb s, jumpIf_onlyMovesPc_of_iff rfl hEq,
    jumpIf_onlyMovesPc_of_iff rfl ((condNe_iff _).trans (not_congr hEq)), jumpIf_onlyMovesPc_of_iff rfl hG,
    jumpIf_onlyMovesPc_of_iff rfl ((condGe_iff _).trans ((or_congr hG hE).trans ?_)), jumpIf_onlyMovesPc_of_iff rfl hL,
    jumpIf_onlyMovesPc_of_iff rfl ((condLe_iff _).trans ((or_congr hL hE).trans Nat.le_iff_lt_or_eq.symm))⟩
  omega

/-! ### INT and IRET -/

theorem reserved_nop {s : State} (h : s.cfg.intIretMode = .nop) (op : Byte) (n : Nat) :
    reserved op n s = .ok (s.setPc (s.pc + n)) := by
  rw [reserved, h]

theorem reserved_fault {s : State} (h : s.cfg.intIretMode = .fault) (op : Byte) (n : Nat) :
    reserved op n s = .error (.reservedInstruction op) := by
  rw [reserved, h]

/-- The opcode of an instruction of the opcode map is its byte there (R66). -/
theorem opcodeOf_of_mem_opcodes {c : Config} {m : Mnemonic} {op : Byte} (h : (m, op) ∈ c.opcodes.rows) :
    c.opcodeOf m = some op :=
  (c.opcodeOf_eq_some m op).2 (List.mem_append_left _ h)

theorem opcodeOf_INT (c : Config) : c.opcodeOf .INT = some c.opcodes.INT :=
  opcodeOf_of_mem_opcodes (by simp [OpcodeMap.rows])

theorem opcodeOf_IRET (c : Config) : c.opcodeOf .IRET = some c.opcodes.IRET :=
  opcodeOf_of_mem_opcodes (by simp [OpcodeMap.rows])

/-- Settles O56: INT and IRET are `reserved` in the two modes, with their bytes of the opcode map. -/
theorem reservedInstructions : Obligations.ReservedInstructions := by
  refine ⟨fun a s h => onlyMovesPc_of_setPc ?_, fun s h => onlyMovesPc_of_setPc ?_, fun a op s h hop => ?_,
    fun op s h hop => ?_, opcodeOf_INT defaultConfig, opcodeOf_IRET defaultConfig⟩
  · rw [exec, execInt, reserved_nop h, settle_ok]
  · rw [exec, execIret, reserved_nop h, settle_ok]
  · rw [opcodeOf_INT] at hop
    cases hop
    rw [Raises, exec, execInt, reserved_fault h, settle_error]
    rfl
  · rw [opcodeOf_IRET] at hop
    cases hop
    rw [Raises, exec, execIret, reserved_fault h, settle_error]
    rfl

end Sys2Proof.Machine
end


section
/-! A store is seen by every later fetch (R50): the three storing instructions and O33. -/

namespace Sys2Proof.Machine

/-- The instruction completes with byte `v` at address `a`, flags, run status, channels and parameters as before, and the
pc past itself unless it is CALL. -/
def Stores (i : Instr) (s : State) (a : Nat) (v : Byte) (t : State) : Prop :=
  exec i s = .next t ∧ a < memSize ∧ Memory.read t.mem a = v ∧ OthersKept s t
    ∧ (i.mnemonic ≠ .CALL → t.pc = s.pc + i.size)

theorem exec_st_stores (ra rb : Fin 8) (s : State) :
    ∃ t, Stores (.st (regOperand ra) (regOperand rb)) s (s.getReg ra).toNat (s.getReg rb) t := by
  obtain ⟨t, hexec, hread, -, -, hothers, hpc⟩ := storeToMemory ra rb s
  exact ⟨t, hexec, byte_lt_memSize _, hread, hothers, fun _ => hpc⟩

theorem sp_sub_one_lt_memSize (s : State) : s.sp.toNat - 1 < memSize :=
  (Nat.sub_le _ 1).trans_lt (byte_lt_memSize s.sp)

theorem exec_push_stores (r : Fin 8) {s : State} (hsp : s.sp ≠ 0) :
    ∃ t, Stores (.push (regOperand r)) s (s.sp.toNat - 1) (if r = 7 then s.sp - 1 else s.getReg r) t := by
  obtain ⟨t, hexec, htsp, hread, -, -, hothers, hpc⟩ := pushStores r s hsp
  have htsp : t.sp = s.sp - 1 := BitVec.eq_of_toNat_eq (htsp.trans (toNat_sub_one hsp).symm)
  exact ⟨t, hexec, sp_sub_one_lt_memSize s, htsp ▸ hread, hothers, fun _ => hpc⟩

theorem exec_call_stores (r : Fin 8) {s : State} {v : Byte} (hsp : s.sp ≠ 0) (hret : s.pc + 2 < 256)
    (hv : v.toNat = s.pc + 2) : ∃ t, Stores (.call (regOperand r)) s (s.sp.toNat - 1) v t := by
  obtain ⟨callReturns, -⟩ := callPushesReturnAddress
  obtain ⟨t, hexec, -, hread, -, -, -, hothers⟩ := callReturns r s hsp hret
  exact ⟨t, hexec, sp_sub_one_lt_memSize s, BitVec.eq_of_toNat_eq (hread.trans hv.symm), hothers, fun h => absurd rfl h⟩

/-- Settles O33: each of the three instructions stores the byte (`Stores`), and a fetch takes its bytes from memory
(`fetch_ok_byte`). -/
theorem storeSeenByNextFetch : Obligations.StoreSeenByNextFetch := by
  intro s i a v hs hv hf hstore
  obtain ⟨t, hexec, ha, hread, ⟨-, hstatus, -, -, hcfg⟩, hpc⟩ : ∃ t, Stores i s a v t := by
    obtain ⟨ra, rb, rfl, rfl, rfl⟩ | ⟨r, rfl, hsp, rfl, rfl⟩ | ⟨r, rfl, hsp, hret, rfl, hval⟩ := hstore
    · exact exec_st_stores ra rb s
    · exact exec_push_stores r hsp
    · exact exec_call_stores r hsp hret hval
  refine ⟨t, (step_of_fetch_ok hs hv hf).trans hexec, hstatus.trans hs, hcfg, ?_, hpc,
    fun u j k hu hkept hj hk hsize => ?_⟩
  · rw [memRead_in t ha, hread]
  · obtain ⟨ws, henc, hbyte⟩ := fetch_ok_byte (hu ▸ hv) hj hsize
    exact ⟨ws, henc, by rw [hbyte, hk, hkept, hread]⟩

end Sys2Proof.Machine
end


section
/-! The loader and the host's part before a run (R216 to R223): where the image stands, which lines are malformed, the
stop request, and O58, O59 and O60. -/

namespace Sys2Proof.Machine

/-! ### The image in memory -/

/-- Bytes placed from an address on, as a later read finds them. -/
theorem Memory.read_place (m : Memory) (a b : Nat) (vs : List Byte) (h : a + vs.length ≤ memSize) :
    Memory.read (Memory.place m a vs) b = if a ≤ b then vs[b - a]?.getD (Memory.read m b) else Memory.read m b := by
  induction vs generalizing m a with
  | nil => simp [Memory.place]
  | cons v vs ih =>
    rw [List.length_cons] at h
    rw [Memory.place, if_pos (by omega), ih _ _ (by omega), Memory.read_write]
    rcases lt_trichotomy a b with hlt | rfl | hgt
    · obtain ⟨k, rfl⟩ := Nat.exists_eq_add_of_lt hlt
      have hindex : a + k + 1 - (a + 1) = k ∧ a + k + 1 - a = k + 1 := by omega
      simp [hindex, hlt.le, hlt.ne, Nat.succ_le_of_lt hlt]
    · simp
    · simp [show ¬ a + 1 ≤ b by omega, show ¬ a ≤ b by omega, show a ≠ b by omega]

/-- An image that fits is placed, by one write after the other (R216). -/
theorem loadFrom_fits (a : Nat) (img : List Byte) (s : State) (h : a + img.length ≤ memSize) :
    loadFrom a img s = .ok (s.setMem (Memory.place s.mem a img)) := by
  induction img generalizing a s with
  | nil => rfl
  | cons v vs ih =>
    rw [List.length_cons] at h
    have ha : a < memSize := by omega
    rw [loadFrom, memWrite_in v s ha, ok_bind, ih _ _ (by omega), Memory.place, if_pos ha]
    rfl

/-- An image that does not fit fails at the first address beyond memory (R217, D21). -/
theorem loadFrom_overflows (a : Nat) (img : List Byte) (s : State) (ha : a ≤ memSize) (h : memSize < a + img.length) :
    loadFrom a img s = .error (.addressOutOfRange memSize) := by
  induction img generalizing a s with
  | nil => exact absurd h ha.not_gt
  | cons v vs ih =>
    rw [List.length_cons] at h
    rcases Nat.lt_or_ge a memSize with hlt | hge
    · rw [loadFrom, memWrite_in v s hlt, ok_bind, ih _ _ hlt (by omega)]
    · obtain rfl : a = memSize := ha.antisymm hge
      rw [loadFrom, memWrite_out v s (a := memSize) (.inr le_rfl), error_bind]

/-- Settles O58: `loadFrom_fits` with the reads of `Memory.read_place`, and `loadFrom_overflows`. -/
theorem loadPlacesImage : Obligations.LoadPlacesImage := by
  refine fun img s => ⟨fun h => ?_, fun h => ?_⟩
  · have hfits : loadBase + img.length ≤ memSize := (Nat.zero_add _).trans_le h
    refine ⟨_, loadFrom_fits loadBase img s hfits, fun a => ?_, fun _ => rfl, ⟨rfl, rfl, rfl, rfl, rfl⟩, rfl⟩
    exact (Memory.read_place s.mem loadBase a img hfits).trans (if_pos (Nat.zero_le a))
  · exact loadFrom_overflows loadBase img s (Nat.zero_le _) (h.trans_eq (Nat.zero_add _).symm)

/-! ### Malformed lines -/

/-- Only the two binary digits are read as bits (R218). -/
theorem binary_of_parseBits {n v : Nat} {cs : List Char} (h : parseBits n cs = some v) :
    ∀ c ∈ cs, c = '0' ∨ c = '1' := by
  induction cs generalizing n with
  | nil => simp
  | cons c cs ih =>
    rw [parseBits] at h
    split at h
    · next hc => exact List.forall_mem_cons.2 ⟨.inl hc, ih h⟩
    · split at h
      · next hc => exact List.forall_mem_cons.2 ⟨.inr hc, ih h⟩
      · cases h

/-- A token that is not exactly 8 binary digits is no byte (R218). -/
theorem parseToken_eq_none {token : List Char} (h : ¬ (token.length = 8 ∧ ∀ c ∈ token, c = '0' ∨ c = '1')) :
    parseToken token = none := by
  rw [parseToken]
  split
  · next hlen =>
    cases hbits : parseBits 0 token with
    | none => rfl
    | some v => exact absurd ⟨hlen, binary_of_parseBits hbits⟩ h
  · rfl

theorem parseFrom_malformed {n : Nat} {line : List Char} (lines : List (List Char)) (hline : stripLine line ≠ [])
    (htoken : parseToken (stripLine line) = none) : parseFrom n (line :: lines) = .error (.malformedProgram n) := by
  rw [parseFrom, if_neg hline, htoken]

/-- Well-formed lines before others only move the line numbers on. -/
theorem parseFrom_append_error {n : Nat} {before lines : List (List Char)} {img : List Byte} {c : Condition}
    (hbefore : parseFrom n before = .ok img) (hlines : parseFrom (n + before.length) lines = .error c) :
    parseFrom n (before ++ lines) = .error c := by
  induction before generalizing n img with
  | nil => exact hlines
  | cons line before ih =>
    rw [List.length_cons, Nat.add_comm before.length, ← Nat.add_assoc] at hlines
    rw [parseFrom] at hbefore
    rw [List.cons_append, parseFrom]
    split at hbefore
    · next hempty => rw [if_pos hempty, ih hbefore hlines]
    · next hline =>
      rw [if_neg hline]
      cases htoken : parseToken (stripLine line) with
      | none =>
        rw [htoken] at hbefore
        cases hbefore
      | some v =>
        rw [htoken] at hbefore
        cases hrest : parseFrom (n + 1) before with
        | error d =>
          rw [hrest] at hbefore
          cases hbefore
        | ok vs => simp [ih hrest hlines]

/-- Settles O59: the parse fails at the line (`parseFrom_append_error`), before anything is loaded. -/
theorem malformedLineIsFatal : Obligations.MalformedLineIsFatal := by
  intro before after line img stop hbefore hline htoken
  have hfails : parseFrom (1 + before.length) (line :: after) = .error (.malformedProgram (1 + before.length)) :=
    parseFrom_malformed after hline (parseToken_eq_none htoken)
  have hprogram : parseProgram (before ++ line :: after) = .error (.malformedProgram (before.length + 1)) := by
    rw [Nat.add_comm before.length]
    exact parseFrom_append_error hbefore hfails
  rw [boot, hprogram, error_bind]

/-! ### The stop request -/

/-- Settles O60: both attempts parse and load alike, and `step_of_halted` answers a fault from the halted state. -/
theorem stopRequestBeforeRun : Obligations.StopRequestBeforeRun := by
  refine fun lines s h => ⟨?_, fun t hstep => ?_⟩
  · rw [boot] at h ⊢
    cases hparse : parseProgram lines with
    | error c =>
      rw [hparse] at h
      cases h
    | ok img =>
      rw [hparse, ok_bind] at h
      cases hload : load img State.reset with
      | error c =>
        rw [hload] at h
        cases h
      | ok u =>
        rw [hload] at h
        cases h
        rw [ok_bind, hload]
        rfl
  · rw [step_of_halted rfl] at hstep
    cases hstep

end Sys2Proof.Machine
end
